-- ==== Sys2Proof/Word.lean ====
section
/-!
DEFINITION. The two widths of the hardware and the packet: `00_scope.md` §5 ("A *byte* is an integer 0 to 255. A *word* is
an integer 0 to 2^32 - 1"), rule R50 ("A *command packet* is a byte list `P` delivered whole by the transport").
Nothing in this hardware is signed, and no other width exists (R34).
-/

namespace Sys2Proof

/-- A byte: every element of `IN`, `OUT`, `key`, `nonce` and `ks`. -/
abbrev Byte := BitVec 8

/-- A 32-bit word: registers, state words, the counter, the packet header. -/
abbrev Word := BitVec 32

/-- A command packet or a response packet, first byte first (R50). -/
abbrev Packet := List Byte

end Sys2Proof
end

