-- ==== Sys2Proof/Config.lean ====
section
/-!
DEFINITION. The implementation parameters that rule R4 calls fixed ("has exactly that value in this hardware; none is configurable
at run time"), and the one value of the model's own: what a parameter register holds when nothing has been constructed.

The spec's two open parameters, `PORT_BINDING` and `N_CORES`, are read by no rule (`92_eei_decisions.md`, last paragraph), so
nothing here stands for them (log entry 7). The model has no free value: no rule leaves a value open that a command can return.
-/

namespace Sys2Proof.Config

/-- `KEY_BYTES` (R4; D00 §3 "exactly 32 bytes (256 bits)"). -/
def keyBytes : Nat := 32

/-- `NONCE_BYTES` (R4; D00 §3 "exactly 12 bytes (96 bits)"). -/
def nonceBytes : Nat := 12

/-- `BLOCK_BYTES` (R4): a keystream block, and so a chunk of PROCESS, is 64 bytes. -/
def blockBytes : Nat := 64

/-- `DEFAULT_ROUNDS` (R4, R130): the round count of PROCESS, and what register `ROUNDS_DEFAULT` reads. -/
def defaultRounds : Nat := 20

/-- `DEFAULT_COUNTER` (R4, R65): what the assembler supplies when CONSTRUCT names no counter. -/
def defaultCounter : Word := 0

/-- What each of `x[0..11]` holds while no cipher is loaded.
DESIGN CHOICE, unsafe (log entry 1): R21 says that the registers "hold no value" then, and no command can read them. -/
def unloadedRegister : Word := 0

end Sys2Proof.Config
end

