-- ==== Sys2Proof/Syntax.lean ====
section
/-!
DEFINITION. The commands of the core as data: one constructor of `Instr` per row of `spec/opcode_table.json` (R52), each with the
operands its format carries (R53 to R58). ENCRYPT and DECRYPT are PROCESS (R65, R129) and have no constructor.
Operands whose size the format fixes carry it in their type; the lengths that a header field states (KLEN, NLEN, LEN) are the
lengths of the lists, and `WellFormed.lean` bounds them.
-/

namespace Sys2Proof

/-- The six opcodes that name a command (R52). -/
inductive Opcode where
  | construct | process | block | qround | build | rdreg
  deriving DecidableEq, Repr

/-- A decoded command. -/
inductive Instr where
  /-- CONSTRUCT, format F-CON (R53): `KLEN = key.length`, `NLEN = nonce.length`. -/
  | construct (key nonce : List Byte) (counter : Word)
  /-- PROCESS, format F-PRO (R54): the input buffer `IN`, `LEN = input.length`. -/
  | process (input : List Byte)
  /-- BLOCK, format F-BLK (R55): `ROUNDS`, then key words, counter and nonce words. -/
  | block (rounds : Fin 256) (k : Vector Word 8) (ctr : Word) (n : Vector Word 3)
  /-- QROUND, format F-QR (R56): indices `A, B, C, D` and the sixteen words. -/
  | qround (a b c d : Fin 16) (v : Vector Word 16)
  /-- BUILD, format F-BLD (R57). -/
  | build (key : Vector Byte 32) (nonce : Vector Byte 12) (counter : Word)
  /-- RDREG, format F-REG (R58). -/
  | rdreg (reg : Fin 32)
  deriving DecidableEq, Repr

/-- Which opcode a command has. -/
def Instr.opcode : Instr → Opcode
  | .construct _ _ _ => .construct
  | .process _ => .process
  | .block _ _ _ _ => .block
  | .qround _ _ _ _ _ => .qround
  | .build _ _ _ => .build
  | .rdreg _ => .rdreg

end Sys2Proof
end

