-- ==== Sys2Proof/WellFormed.lean ====
section
/-!
DEFINITION. Which commands a packet can carry. Three header fields state a length, and a list longer than its field can say has no
packet: `KLEN` and `NLEN` are 8 bits (R53, decision D8), `LEN` is 28 bits (R54, decision D9).
Every other bound is in the operand's type (`ROUNDS` 0 to 255, indices 0 to 15, `REG` 0 to 31, the fixed vectors).
A key or nonce of the wrong length is well formed: the core refuses it, not the port (R53, R121).
-/

namespace Sys2Proof

/-- The command has a packet (R53, R54). -/
def Instr.wellFormed : Instr → Bool
  | .construct key nonce _ => key.length < 256 && nonce.length < 256
  | .process input => input.length < 2 ^ 28
  | .block _ _ _ _ => true
  | .qround _ _ _ _ _ => true
  | .build _ _ _ => true
  | .rdreg _ => true

end Sys2Proof
end

