-- ==== Sys2Proof/Decode.lean ====
section
/-!
DEFINITION. From a command packet to a command and back (`30_encoding.md`): bit fields and byte order (R5, R6, R32), the decoder of
R61, total on byte lists, and after it the encoder, written from the same formats R53 to R58. The decoder rejects by the name of
the error it raises (R60) and reads no state (R62).
-/

namespace Sys2Proof

/-! ### Bit fields and byte order -/

/-- `v[hi:lo]`, "the unsigned integer made of bits `hi` down to `lo` of `v`, that is `(v >> lo) mod 2^(hi-lo+1)`" (`00_scope.md` §5). -/
def bits (w : Word) (hi lo : Nat) : Nat := w.toNat / 2 ^ lo % 2 ^ (hi - lo + 1)

/-- A bit field as a number below its bound: no field is sign-extended, scaled or shifted (R59). -/
def bitField (w : Word) (hi lo : Nat) : Fin (2 ^ (hi - lo + 1)) :=
  ⟨bits w hi lo, Nat.mod_lt _ (Nat.two_pow_pos _)⟩

/-- `le32` (R6): the first byte is the least significant. -/
def le32 (b0 b1 b2 b3 : Byte) : Word :=
  BitVec.ofNat 32 (b0.toNat + 2 ^ 8 * b1.toNat + 2 ^ 16 * b2.toNat + 2 ^ 24 * b3.toNat)

/-- `bytes_le` (R6): `[w[7:0], w[15:8], w[23:16], w[31:24]]`. -/
def bytesLe (w : Word) : List Byte :=
  [BitVec.ofNat 8 (bits w 7 0), BitVec.ofNat 8 (bits w 15 8), BitVec.ofNat 8 (bits w 23 16), BitVec.ofNat 8 (bits w 31 24)]

/-- `words_le` (R6), for a byte list whose length is a multiple of 4; one to three bytes left over, which R6 does not admit and no
use of this function has, make no word. -/
def wordsLe : List Byte → List Word
  | b0 :: b1 :: b2 :: b3 :: rest => le32 b0 b1 b2 b3 :: wordsLe rest
  | _ => []

/-- The words of a list, one after another, each as `bytes_le` (R32, R63). -/
def wordsToBytes (ws : List Word) : List Byte := ws.flatMap bytesLe

/-- A list as a vector, where its length is the vector's. -/
def toVec {α : Type} (n : Nat) (l : List α) : Option (Vector α n) :=
  if h : l.length = n then some ⟨l.toArray, h⟩ else none

/-- A word operand: exactly four bytes, read by `le32` (R59). -/
def wordFrom : List Byte → Option Word
  | [b0, b1, b2, b3] => some (le32 b0 b1 b2 b3)
  | _ => none

/-! ### The opcode map and the formats -/

/-- The opcode number of the map R52. -/
def Opcode.number : Opcode → Nat
  | .construct => 1
  | .process => 2
  | .block => 3
  | .qround => 4
  | .build => 5
  | .rdreg => 6

/-- The `match` column of R66. -/
def Opcode.matchWord : Opcode → Word
  | .construct => 0x10000000
  | .process => 0x20000000
  | .block => 0x30000000
  | .qround => 0x40000000
  | .build => 0x50000000
  | .rdreg => 0x60000000

/-- The `mask` column of R66. -/
def Opcode.maskWord : Opcode → Word
  | .construct => 0xFFFF0000
  | .process => 0xF0000000
  | .block => 0xFFFFFF00
  | .qround => 0xFFFF0000
  | .build => 0xFFFFFFFF
  | .rdreg => 0xFFFFFFE0

/-- R66: "a header selects the command when `H & mask = match`". The decoder's own tests are R61's; `Opcode.selects_iff` says that they
agree. -/
def Opcode.selects (op : Opcode) (h : Word) : Bool := h &&& op.maskWord == op.matchWord

/-- Step 2 of R61: `OPC = H[31:28]`; 0 and 7 to 15 name no command. -/
def opcodeOf (h : Word) : Option Opcode :=
  match bits h 31 28 with
  | 1 => some .construct
  | 2 => some .process
  | 3 => some .block
  | 4 => some .qround
  | 5 => some .build
  | 6 => some .rdreg
  | _ => none

/-- The reserved bits of an opcode's format (R61 step 3); PROCESS has none. -/
def reservedBits (op : Opcode) (h : Word) : Nat :=
  match op with
  | .construct => bits h 27 16
  | .process => 0
  | .block => bits h 27 8
  | .qround => bits h 27 16
  | .build => bits h 27 0
  | .rdreg => bits h 27 5

/-- The payload length that the header implies (R52, R61 step 4). -/
def payloadBytes (op : Opcode) (h : Word) : Nat :=
  match op with
  | .construct => bits h 15 8 + bits h 7 0 + 4
  | .process => bits h 27 0
  | .block => 48
  | .qround => 64
  | .build => 48
  | .rdreg => 0

/-! ### The decoder -/

/-- The two errors of the decoder (R60): no such command, or a packet of the wrong shape. -/
inductive DecodeError where
  /-- `E_OPCODE` (R158). -/
  | opcode
  /-- `E_FORMAT` (R159). -/
  | format
  deriving DecidableEq, Repr

/-- The operands of a command, from the header and a payload of the length the header implies (R53 to R58). It answers for every
payload of that length; a payload of another length never reaches it. -/
def operands (op : Opcode) (h : Word) (payload : List Byte) : Option Instr :=
  match op with
  | .construct =>
    let klen := bits h 15 8
    let nlen := bits h 7 0
    (wordFrom (payload.drop (klen + nlen))).map fun counter =>
      .construct (payload.take klen) ((payload.drop klen).take nlen) counter
  | .process => some (.process payload)
  | .block =>
    match toVec 8 (wordsLe (payload.take 32)), wordFrom ((payload.drop 32).take 4), toVec 3 (wordsLe (payload.drop 36)) with
    | some k, some ctr, some n => some (.block (bitField h 7 0) k ctr n)
    | _, _, _ => none
  | .qround =>
    (toVec 16 (wordsLe payload)).map fun v =>
      .qround (bitField h 15 12) (bitField h 11 8) (bitField h 7 4) (bitField h 3 0) v
  | .build =>
    match toVec 32 (payload.take 32), toVec 12 ((payload.drop 32).take 12), wordFrom (payload.drop 44) with
    | some key, some nonce, some counter => some (.build key nonce counter)
    | _, _, _ => none
  | .rdreg => some (.rdreg (bitField h 4 0))

/-- Steps 2 to 5 of R61, for a packet that has a header. -/
def decodeHeader (h : Word) (payload : List Byte) : Except DecodeError Instr :=
  match opcodeOf h with
  | none => .error .opcode
  | some op =>
    if reservedBits op h ≠ 0 then .error .format
    else if payload.length ≠ payloadBytes op h then .error .format
    else
      match operands op h payload with
      | some i => .ok i
      | none => .error .format

/-- The decoder (R61): its tests in the spec's order, the first that fires decides (R160). -/
def decodePacket : Packet → Except DecodeError Instr
  | b0 :: b1 :: b2 :: b3 :: payload => decodeHeader (le32 b0 b1 b2 b3) payload
  | _ => .error .format

/-! ### The encoder -/

/-- The header of a well-formed command (R53 to R58): the match word of its row and its fields. -/
def headerWord : Instr → Word
  | .construct key nonce _ => BitVec.ofNat 32 (0x10000000 + 2 ^ 8 * key.length + nonce.length)
  | .process input => BitVec.ofNat 32 (0x20000000 + input.length)
  | .block rounds _ _ _ => BitVec.ofNat 32 (0x30000000 + rounds.val)
  | .qround a b c d _ => BitVec.ofNat 32 (0x40000000 + 2 ^ 12 * a.val + 2 ^ 8 * b.val + 2 ^ 4 * c.val + d.val)
  | .build _ _ _ => 0x50000000
  | .rdreg reg => BitVec.ofNat 32 (0x60000000 + reg.val)

/-- The payload of a command (R53 to R58). -/
def payloadOf : Instr → List Byte
  | .construct key nonce counter => key ++ nonce ++ bytesLe counter
  | .process input => input
  | .block _ k ctr n => wordsToBytes k.toList ++ bytesLe ctr ++ wordsToBytes n.toList
  | .qround _ _ _ _ v => wordsToBytes v.toList
  | .build key nonce counter => key.toList ++ nonce.toList ++ bytesLe counter
  | .rdreg _ => []

/-- The packet of a well-formed command (R50): the header as `bytes_le` (R32), then the payload. -/
def encode (i : Instr) : Packet := bytesLe (headerWord i) ++ payloadOf i

/-! ### A row of the opcode table as a packet -/

/-- The `n` lowest bytes of `w`, least significant first: the order of the port (R32). -/
def lowBytes : Nat → Nat → List Byte
  | 0, _ => []
  | n + 1, w => BitVec.ofNat 8 w :: lowBytes n (w / 256)

/-- Zeros for the part of the payload, as the header implies it, that a packet does not have yet. -/
def zeroPayload : Packet → List Byte
  | b0 :: b1 :: b2 :: b3 :: payload =>
    match opcodeOf (le32 b0 b1 b2 b3) with
    | some op => List.replicate (payloadBytes op (le32 b0 b1 b2 b3) - payload.length) 0
    | none => []
  | _ => []

/-- The packet of an opcode-table row: the row's bits are the header (and would be what follows it, least significant byte first),
and every payload byte above them is zero. -/
def tablePacket (nbits w : Nat) : Packet :=
  lowBytes (nbits / 8) w ++ zeroPayload (lowBytes (nbits / 8) w)

/-- What the decoder reads from an opcode-table row. -/
def decodeTableWord (nbits w : Nat) : Option Instr :=
  match decodePacket (tablePacket nbits w) with
  | .ok i => some i
  | .error _ => none

end Sys2Proof
end

