-- ==== Sys2Proof/Machine/State.lean ====
section
/-!
DEFINITION. The state of the core (`10_state.md`): the twelve parameter registers and the flag `LOADED`, which R10 calls "the
complete architectural state", and, the model's own, the two ends of the command port: what the host has presented and what the
core has answered (log entries 2, 3, 4). The working files `w`, `s0`, `ks` of R17 are values inside a command and no field: "a model must
not give it a meaning" (R17), "There is no other" (R10).
-/

namespace Sys2Proof.Machine

/-- What can happen to the core from outside: "nothing but a command packet or reset makes it act" (R168). -/
inductive PortEvent where
  /-- A command packet has arrived whole (R50), and its command runs to completion. -/
  | command (p : Packet)
  /-- A command packet has arrived, and reset comes while its command is in execution (R181). -/
  | commandCutByReset (p : Packet)
  /-- Reset while no command is in execution (R180). -/
  | reset
  deriving DecidableEq, Repr

/-- The state of the core and of the two ends of its port. -/
structure State where
  /-- `x[0..11]`: `KEY[i] = x[i]`, `CTR = x[8]`, `NONCE[i] = x[9+i]` (R11). -/
  x : Vector Word 12
  /-- The flag `LOADED` (R14). -/
  loaded : Bool
  /-- The model's own: what the host presents at the command port, in order of arrival (R37). -/
  inbox : List PortEvent
  /-- The model's own: the response packets given since reset, oldest first (R37, R50). -/
  responses : List Packet
  deriving DecidableEq, Repr

/-- The machine right after reset (R21, R180): `LOADED = 0`, no command in execution, no response pending. The registers "hold no
value": what stands in `x` is the model's choice, which no command can read (DESIGN CHOICE, log entry 1). -/
def State.reset : State where
  x := Vector.replicate 12 Config.unloadedRegister
  loaded := false
  inbox := []
  responses := []

/-- No command of this hardware stops the machine: an error is a response, after which "the core is ready for the next command"
(R150). So there is no fault, and no meaning raises one: safe, since there is nothing that a claim could leave out. -/
inductive Fault where
  deriving DecidableEq, Repr

/-- Why the model gives no meaning. -/
inductive Refusal where
  /-- Raised by `exec` only, for an instruction whose arm has no meaning: safe, since nothing is claimed of it. No arm does. -/
  | notModelled (mnemonic : String)
  deriving DecidableEq, Repr

/-- What a meaning answers. -/
abbrev Result := Host.Outcome State Fault Refusal

end Sys2Proof.Machine
end

