-- ==== Sys2Proof/Machine/Ops.lean ====
section
/-!
DEFINITION. The operations every command is made of: the two ways a command ends (`return v` and `raise E_X`, `00_scope.md` §5), the
access to the buffers `IN` and `OUT` (R30, R35), and what the port does to the state (R37, R180, R181).
-/

namespace Sys2Proof.Machine

/-! ### How a command ends -/

/-- The eight causes of an error (R151). -/
inductive Cause where
  | keyLen | nonceLen | rounds | notLoaded | index | reg | opcode | format
  deriving DecidableEq, Repr

/-- The status byte of a cause (R151). -/
def Cause.code : Cause → Byte
  | .keyLen => 0x01
  | .nonceLen => 0x02
  | .rounds => 0x03
  | .notLoaded => 0x04
  | .index => 0x05
  | .reg => 0x06
  | .opcode => 0x07
  | .format => 0x08

/-- The status byte `OK` (R151). -/
def okCode : Byte := 0x00

/-- One response packet leaves the core, after the ones before it (R37, R50). -/
def emit (q : Packet) (s : State) : State := { s with responses := s.responses ++ [q] }

/-- `return v`: "the command ends with status `OK` and result payload `v`" (`00_scope.md` §5, R63). -/
def finish (payload : List Byte) (s : State) : Result := .next (emit (okCode :: payload) s)

/-- `raise E_X` (R150), the one error mechanism of the hardware: the response is the single status byte, and "no architectural
state is changed". Nothing is saved and control goes nowhere, so there is no entry to a handler and no return from one (R161): the
machine goes on with the next command. -/
def raiseError (c : Cause) (s : State) : Result := .next (emit [c.code] s)

/-- The cause that a decoder error reports (R158, R159). -/
def decodeCause : DecodeError → Cause
  | .opcode => .opcode
  | .format => .format

/-! ### The buffers of the command in execution -/

/-- `MemRead(off, n)`: the `n` bytes of the input buffer at offset `off` (R30); `off + n <= L` where it is used. -/
def memRead (input : List Byte) (off n : Nat) : List Byte := (input.drop off).take n

/-- `MemWrite(off, n, v)`: stores the byte list `v` at offset `off` of the output buffer (R30). The buffer is the list of the bytes
written so far, which PROCESS writes "in increasing offset order" (R35), so no byte of it is ever without a value. -/
def memWrite (out : List Byte) (off : Nat) (v : List Byte) : List Byte := out.take off ++ v ++ out.drop (off + v.length)

/-! ### The port -/

/-- The next event at the port, and the state once it is taken: events are taken in their order of arrival (R37). -/
def takeEvent (s : State) : Option (PortEvent × State) :=
  match s.inbox with
  | [] => none
  | e :: rest => some (e, { s with inbox := rest })

/-- The core waits: nothing but a command packet or reset makes it act (R168). -/
def idle (s : State) : Result := .next s

/-- Reset (R180, R181): every piece of state at its reset value, whatever a command had done; no response is sent for a command that
reset cuts off. What the host presents afterwards is still to come. -/
def applyReset (s : State) : State := { State.reset with inbox := s.inbox }

/-- The host presents a command packet so that it is the next to be taken. -/
def present (p : Packet) (s : State) : State := { s with inbox := .command p :: s.inbox }

end Sys2Proof.Machine
end

