-- ==== Sys2Proof/Machine/Operands.lean ====
section
/-!
DEFINITION. The operands of the sub-blocks: the arithmetic primitives (R5), the parameter registers under their names (R11), the
conversion of a byte string to words (R6) and of the sixteen words to bytes (R106).
-/

namespace Sys2Proof.Machine

/-! ### Arithmetic (R5, R19): no flag is set, nothing can fail, the carry out is dropped -/

/-- `add32(a, b) = (a + b) mod 2^32`. -/
def add32 (a b : Word) : Word := a + b

/-- `rotl32(x, n) = ((x * 2^n) mod 2^32) + (x >> (32 - n))`, for `1 <= n <= 31`. -/
def rotl32 (x : Word) (n : Nat) : Word := x <<< n + x >>> (32 - n)

/-! ### The parameter registers (R11) -/

/-- `KEY[0..7] = x[0..7]`. -/
def keyWords (x : Vector Word 12) : Vector Word 8 := #v[x[0], x[1], x[2], x[3], x[4], x[5], x[6], x[7]]

/-- `CTR = x[8]`. -/
def ctrWord (x : Vector Word 12) : Word := x[8]

/-- `NONCE[0..2] = x[9..11]`. -/
def nonceWords (x : Vector Word 12) : Vector Word 3 := #v[x[9], x[10], x[11]]

/-- The register file that holds key words `k`, counter `c` and nonce words `n`. -/
def paramRegs (k : Vector Word 8) (c : Word) (n : Vector Word 3) : Vector Word 12 :=
  #v[k[0], k[1], k[2], k[3], k[4], k[5], k[6], k[7], c, n[0], n[1], n[2]]

/-- `x[8] <- c`: only the counter is written. -/
def writeCtr (c : Word) (s : State) : State := { s with x := s.x.set 8 c }

/-! ### Byte strings and words -/

theorem wordsLe_length (n : Nat) : ∀ bs : List Byte, bs.length = 4 * n → (wordsLe bs).length = n := by
  induction n with
  | zero =>
    intro bs h
    have : bs = [] := List.eq_nil_of_length_eq_zero (by omega)
    subst this
    rfl
  | succ n ih =>
    intro bs h
    match bs, h with
    | b0 :: b1 :: b2 :: b3 :: rest, h =>
      have hr : rest.length = 4 * n := by simp only [List.length_cons] at h; omega
      simp [wordsLe, ih rest hr]
    | [], h => simp at h
    | [_], h => simp at h; omega
    | [_, _], h => simp at h; omega
    | [_, _, _], h => simp at h; omega

/-- `words_le(s)` for a byte string of `4 n` bytes: its `n` words (R6). -/
def wordsOf (n : Nat) (bs : List Byte) (h : bs.length = 4 * n) : Vector Word n :=
  ⟨(wordsLe bs).toArray, wordsLe_length n bs h⟩

/-- `Serialize(w)` (R106): "each word written little-endian, word 0 first". -/
def serialize (w : Vector Word 16) : List Byte := wordsToBytes w.toList

end Sys2Proof.Machine
end

