-- ==== Sys2Proof/Machine/Flags.lean ====
section
/-!
DEFINITION. The one flag. There are no condition codes: no carry, overflow, zero or sign flag exists, and no arithmetic result is
recorded anywhere but in its destination (R19). `LOADED` is written by reset (0) and by a successful CONSTRUCT (1) and by nothing else
(R14), and read by PROCESS and RDREG.
-/

namespace Sys2Proof.Machine

/-- The `STATUS` register (R15, R20): bit 0 is `LOADED`, bits 31:1 read 0. -/
def statusWord (loaded : Bool) : Word := if loaded then 1 else 0

/-- `LOADED <- 1`. -/
def setLoaded (s : State) : State := { s with loaded := true }

/-- `if LOADED = 0 : raise E_NOTLOADED` (R155), before what comes next. -/
def requireLoaded (s : State) (next : Result) : Result := if s.loaded then next else raiseError .notLoaded s

end Sys2Proof.Machine
end

