-- ==== Sys2Proof/Machine/QuarterRound.lean ====
section
/-!
DEFINITION. The quarter-round mixer (`40_quarter_round_mixer.md`) and its command QROUND.
-/

namespace Sys2Proof.Machine

/-- Pairwise distinct indices (R84). -/
abbrev Distinct {n : Nat} (a b c d : Fin n) : Prop := a ≠ b ∧ a ≠ c ∧ a ≠ d ∧ b ≠ c ∧ b ≠ d ∧ c ≠ d

/-- "four distinct indices (a, b, c, d)": the quarter round has no value on repeated ones (R84), so an index quadruple carries the
proof that it has none. -/
structure Quad (n : Nat) where
  a : Fin n
  b : Fin n
  c : Fin n
  d : Fin n
  distinct : Distinct a b c d
  deriving DecidableEq, Repr

/-- `QR(v, a, b, c, d)` (R80): the twelve assignments, in order, on a list of any length (`90_conflicts.md` C10). -/
def qr {n : Nat} (v : Vector Word n) (q : Quad n) : Vector Word n :=
  let v := v.set q.a (add32 v[q.a] v[q.b])
  let v := v.set q.d (v[q.d] ^^^ v[q.a])
  let v := v.set q.d (rotl32 v[q.d] 16)
  let v := v.set q.c (add32 v[q.c] v[q.d])
  let v := v.set q.b (v[q.b] ^^^ v[q.c])
  let v := v.set q.b (rotl32 v[q.b] 12)
  let v := v.set q.a (add32 v[q.a] v[q.b])
  let v := v.set q.d (v[q.d] ^^^ v[q.a])
  let v := v.set q.d (rotl32 v[q.d] 8)
  let v := v.set q.c (add32 v[q.c] v[q.d])
  let v := v.set q.b (v[q.b] ^^^ v[q.c])
  let v := v.set q.b (rotl32 v[q.b] 7)
  v

/-- The quadruple `(0, 1, 2, 3)` of a four-word list. -/
def firstFour : Quad 4 := ⟨0, 1, 2, 3, by decide⟩

/-- `QR4(p, q, r, s) = QR([p, q, r, s], 0, 1, 2, 3)` (R83). -/
def qr4 (p q r s : Word) : Vector Word 4 := qr #v[p, q, r, s] firstFour

/-- The eight index quadruples of the block function (R82), first the four columns, then the four diagonals. -/
def column0 : Quad 16 := ⟨0, 4, 8, 12, by decide⟩
def column1 : Quad 16 := ⟨1, 5, 9, 13, by decide⟩
def column2 : Quad 16 := ⟨2, 6, 10, 14, by decide⟩
def column3 : Quad 16 := ⟨3, 7, 11, 15, by decide⟩
def diagonal0 : Quad 16 := ⟨0, 5, 10, 15, by decide⟩
def diagonal1 : Quad 16 := ⟨1, 6, 11, 12, by decide⟩
def diagonal2 : Quad 16 := ⟨2, 7, 8, 13, by decide⟩
def diagonal3 : Quad 16 := ⟨3, 4, 9, 14, by decide⟩

/-- QROUND (R85): repeated indices raise `E_INDEX`, and otherwise the sixteen words after the quarter round are returned. -/
def execQround (a b c d : Fin 16) (v : Vector Word 16) (s : State) : Result :=
  if h : Distinct a b c d then finish (serialize (qr v ⟨a, b, c, d, h⟩)) s else raiseError .index s

end Sys2Proof.Machine
end

