-- ==== Sys2Proof/Machine/StateBuilder.lean ====
section
/-!
DEFINITION. The state builder (`41_state_builder.md`) and its command BUILD.
-/

namespace Sys2Proof.Machine

/-- `CONST[0..3]` (R4, R91), the words of "expand 32-byte k": hardwired values, not state (R24). -/
def constWords : Vector Word 4 := #v[0x61707865, 0x3320646e, 0x79622d32, 0x6b206574]

/-- `BuildState(k, ctr, n)` (R95): constants, key words, counter, nonce words, in the layout of R90. -/
def buildState (k : Vector Word 8) (ctr : Word) (n : Vector Word 3) : Vector Word 16 :=
  #v[constWords[0], constWords[1], constWords[2], constWords[3],
     k[0], k[1], k[2], k[3],
     k[4], k[5], k[6], k[7],
     ctr, n[0], n[1], n[2]]

/-- `BuildStateBytes(key, nonce, ctr)` (R92): the same builder after the byte-to-word conversion. -/
def buildStateBytes (key : Vector Byte 32) (nonce : Vector Byte 12) (ctr : Word) : Vector Word 16 :=
  buildState (wordsOf 8 key.toList (by simp)) ctr (wordsOf 3 nonce.toList (by simp))

/-- BUILD (R96): the sixteen words are returned, nothing is read or written. -/
def execBuild (key : Vector Byte 32) (nonce : Vector Byte 12) (counter : Word) (s : State) : Result :=
  finish (serialize (buildStateBytes key nonce counter)) s

end Sys2Proof.Machine
end

