-- ==== Sys2Proof/Machine/BlockFunction.lean ====
section
/-!
DEFINITION. The block function (`42_block_function.md`) and its command BLOCK.
-/

namespace Sys2Proof.Machine

/-- `DoubleRound(w)` (R101): four columns, then four diagonals; the order among the four of a pass makes no difference (R102). -/
def doubleRound (w : Vector Word 16) : Vector Word 16 :=
  let w := qr w column0
  let w := qr w column1
  let w := qr w column2
  let w := qr w column3
  let w := qr w diagonal0
  let w := qr w diagonal1
  let w := qr w diagonal2
  let w := qr w diagonal3
  w

/-- Step 3 of R100: `DoubleRound` the given number of times. -/
def doubleRounds : Nat → Vector Word 16 → Vector Word 16
  | 0, w => w
  | m + 1, w => doubleRounds m (doubleRound w)

/-- Step 4 of R100: the word-wise sum modulo 2^32. -/
def addWords (w s0 : Vector Word 16) : Vector Word 16 :=
  ⟨(List.zipWith add32 w.toList s0.toList).toArray, by simp⟩

/-- `Block(k, ctr, n, rounds)` (R100), for an even `rounds` only: "`Block` is never evaluated for an odd count" (R104). -/
def block (k : Vector Word 8) (ctr : Word) (n : Vector Word 3) (rounds : Nat) (_even : rounds % 2 = 0) : Vector Word 16 :=
  let s0 := buildState k ctr n
  let w := doubleRounds (rounds / 2) s0
  addWords w s0

/-- BLOCK (R107): an odd round count raises `E_ROUNDS`, and otherwise the sixteen words are returned. -/
def execBlock (rounds : Fin 256) (k : Vector Word 8) (ctr : Word) (n : Vector Word 3) (s : State) : Result :=
  if h : rounds.val % 2 = 0 then finish (serialize (block k ctr n rounds.val h)) s else raiseError .rounds s

end Sys2Proof.Machine
end

