-- ==== Sys2Proof/Machine/RegisterAccess.lean ====
section
/-!
DEFINITION. The register space (`10_state.md` R15) and the command RDREG that reads it (`44_register_access.md`).
-/

namespace Sys2Proof.Machine

/-- What a register number answers (R15, R140): its value, or the error. -/
def readRegister (reg : Fin 32) (s : State) : Except Cause Word :=
  if h : reg.val < 4 then .ok constWords[reg.val]
  else if reg.val = 12 then (if s.loaded then .ok (ctrWord s.x) else .error .notLoaded)
  else if reg.val = 16 then .ok (statusWord s.loaded)
  else if reg.val = 17 then .ok (BitVec.ofNat 32 Config.defaultRounds)
  else .error .reg

/-- RDREG (R140): one word, or `E_REG` for a number without a readable register, or `E_NOTLOADED`. A read has no side effect. -/
def execRdreg (reg : Fin 32) (s : State) : Result :=
  match readRegister reg s with
  | .ok w => finish (bytesLe w) s
  | .error c => raiseError c s

end Sys2Proof.Machine
end

