-- ==== Sys2Proof/Machine/StreamXor.lean ====
section
/-!
DEFINITION. The stream XOR engine (`43_stream_xor_engine.md`): CONSTRUCT and PROCESS, the only commands that write architectural state.
-/

namespace Sys2Proof.Machine

/-! ### CONSTRUCT -/

/-- The whole cipher is replaced, all of `x[0..11]` at once, and marked loaded (R120, R133). -/
def loadCipher (k : Vector Word 8) (counter : Word) (n : Vector Word 3) (s : State) : State :=
  setLoaded { s with x := paramRegs k counter n }

/-- CONSTRUCT (R120): the key's length is tested before the nonce's (R160), and a wrong length changes nothing (R121). -/
def execConstruct (key nonce : List Byte) (counter : Word) (s : State) : Result :=
  if hk : key.length = Config.keyBytes then
    if hn : nonce.length = Config.nonceBytes then
      finish [] (loadCipher (wordsOf 8 key hk) counter (wordsOf 3 nonce hn) s)
    else raiseError .nonceLen s
  else raiseError .keyLen s

/-! ### PROCESS -/

/-- The keystream block for a counter value: `Serialize(Block(KEY, c, NONCE, 20))` (R106, R130). -/
def keystream (k : Vector Word 8) (n : Vector Word 3) (c : Word) : List Byte :=
  serialize (block k c n Config.defaultRounds (by decide))

/-- `[ c[j] ^ ks[j] for j in 0 .. n-1 ]`: as long as the chunk, the rest of the keystream block is discarded (R23, R124). -/
def xorBytes (chunk ks : List Byte) : List Byte := List.zipWith (· ^^^ ·) chunk ks

/-- The loop of R122, `while off < L`: the counter and the output buffer when it ends. Each turn takes one chunk of
`n = min(64, L - off)` bytes and counts one block. `fuel` bounds the turns; `L` of them are always enough. -/
def processLoop (k : Vector Word 8) (n : Vector Word 3) (input : List Byte) :
    (fuel off : Nat) → (ctr : Word) → (out : List Byte) → Word × List Byte
  | 0, _, ctr, out => (ctr, out)
  | fuel + 1, off, ctr, out =>
    if off < input.length then
      let len := min Config.blockBytes (input.length - off)
      let chunk := memRead input off len
      processLoop k n input fuel (off + Config.blockBytes) (add32 ctr 1) (memWrite out off (xorBytes chunk (keystream k n ctr)))
    else (ctr, out)

/-- `OUT` of PROCESS from key, nonce and counter, and the counter afterwards. -/
def processBuffer (k : Vector Word 8) (n : Vector Word 3) (ctr : Word) (input : List Byte) : Word × List Byte :=
  processLoop k n input input.length 0 ctr []

/-- PROCESS (R122): without a cipher it raises `E_NOTLOADED` (R127); with one it cannot fail (R128). -/
def execProcess (input : List Byte) (s : State) : Result :=
  requireLoaded s <|
    let r := processBuffer (keyWords s.x) (nonceWords s.x) (ctrWord s.x) input
    finish r.2 (writeCtr r.1 s)

end Sys2Proof.Machine
end

