-- ==== Sys2Proof/Machine/Dispatch.lean ====
section
/-!
DEFINITION. One arm per command (R52): each calls its meaning.
-/

namespace Sys2Proof.Machine

def exec (i : Instr) (s : State) : Host.Outcome State Fault Refusal :=
  match i with
  | .construct key nonce counter => Sys2Proof.Machine.execConstruct key nonce counter s
  | .process input => Sys2Proof.Machine.execProcess input s
  | .block rounds k ctr n => Sys2Proof.Machine.execBlock rounds k ctr n s
  | .qround a b c d v => Sys2Proof.Machine.execQround a b c d v s
  | .build key nonce counter => Sys2Proof.Machine.execBuild key nonce counter s
  | .rdreg reg => Sys2Proof.Machine.execRdreg reg s

end Sys2Proof.Machine
end

