-- ==== Sys2Proof/Machine/Port.lean ====
section
/-!
DEFINITION. A command packet in execution.
-/

namespace Sys2Proof.Machine

/-- The decoder's errors come first, then the command's own rule with its own checks (R61, R160). -/
def runPacket (p : Packet) (s : State) : Result :=
  match decodePacket p with
  | .ok i => exec i s
  | .error e => raiseError (decodeCause e) s

end Sys2Proof.Machine
end

