-- ==== Sys2Proof/Machine/Step.lean ====
section
/-!
DEFINITION. One step of the core is one whole command (R7): take the next event at the port, decode its packet, run it, answer.
-/

namespace Sys2Proof.Machine

/-- One step: nothing at the port, nothing happens (R168); a command runs to completion (R37, R41); a reset, in the middle of a
command or between two, leaves the reset state and no response (R180, R181). -/
def step (s : State) : Host.Outcome State Fault Refusal :=
  match takeEvent s with
  | none => idle s
  | some (.command p, s') => runPacket p s'
  | some (.commandCutByReset _, s') => .next (applyReset s')
  | some (.reset, s') => .next (applyReset s')

/-- The packet of an opcode-table row presented at the port, so that the next step takes it (log entry 6). -/
def State.withFetchWord (s : State) (nbits w : Nat) : State := present (tablePacket nbits w) s

end Sys2Proof.Machine
end

