-- ==== Sys2Proof/Machine/Assembler.lean ====
section
/-!
DEFINITION. The textual form of a command and the pseudo-commands (`30_encoding.md` R64, R65): what a host writes, as far as the packet
it stands for. The core never sees any of it. Text becomes tokens, tokens a statement, a statement a command, a command a packet; each
stage answers none where the text is no command. Finer points of the lexical form, on which R64 is silent, are log entry 8.
-/

namespace Sys2Proof.Machine

/-! ### Tokens -/

/-- The names R64 and R65 use: "Keywords are upper case"; operand names and register names stand as R64 writes them. -/
inductive Keyword where
  | construct | process | encrypt | decrypt | block | qround | build | rdreg
  | key | nonce | counter | rounds
  | const0 | const1 | const2 | const3 | ctr | status | roundsDefault
  deriving DecidableEq, Repr

/-- The spelling of each name. -/
def keywordTable : List (List Char × Keyword) :=
  [("CONSTRUCT".toList, .construct), ("PROCESS".toList, .process), ("ENCRYPT".toList, .encrypt), ("DECRYPT".toList, .decrypt),
   ("BLOCK".toList, .block), ("QROUND".toList, .qround), ("BUILD".toList, .build), ("RDREG".toList, .rdreg),
   ("key".toList, .key), ("nonce".toList, .nonce), ("counter".toList, .counter), ("rounds".toList, .rounds)] ++
  [("CONST0".toList, .const0), ("CONST1".toList, .const1), ("CONST2".toList, .const2), ("CONST3".toList, .const3),
   ("CTR".toList, .ctr), ("STATUS".toList, .status), ("ROUNDS_DEFAULT".toList, .roundsDefault)]

inductive Token where
  | name (k : Keyword)
  | number (n : Nat)
  | bytes (bs : List Byte)
  | mark (c : Char)
  deriving DecidableEq, Repr

/-- What the scan is in the middle of; a list is kept last character first. After exactly one `0` comes either the `x` of a hexadecimal
numeral or more of a decimal. -/
inductive Scan where
  | between
  | inName (cs : List Char)
  | inZero
  | inDecimal (n : Nat)
  | inHex (n : Option Nat)
  | inHexBytes (high : Option Nat) (bs : List Byte)
  | inText (bs : List Byte)
  deriving DecidableEq, Repr

/-- The value of a hexadecimal digit. -/
def hexDigit (c : Char) : Option Nat :=
  let n := c.toNat
  if 48 ≤ n ∧ n ≤ 57 then some (n - 48)
  else if 97 ≤ n ∧ n ≤ 102 then some (n - 87)
  else if 65 ≤ n ∧ n ≤ 70 then some (n - 55)
  else none

/-- The value of a decimal digit. -/
def decDigit (c : Char) : Option Nat := if 48 ≤ c.toNat ∧ c.toNat ≤ 57 then some (c.toNat - 48) else none

/-- A character of a name: a letter, a digit or the underscore. -/
def isNameChar (c : Char) : Bool :=
  let n := c.toNat
  (65 ≤ n && n ≤ 90) || (97 ≤ n && n ≤ 122) || (48 ≤ n && n ≤ 57) || n == 95

/-- A space or a line's end. -/
def isBlank (c : Char) : Bool := c.toNat == 32 || c.toNat == 9 || c.toNat == 10 || c.toNat == 13

/-- The double quote that opens and closes a byte string. -/
def isQuote (c : Char) : Bool := c.toNat == 34

/-- The token that ends where the scan stands; none in the middle of a byte string or at an unknown name. -/
def closeToken : Scan → Option (List Token)
  | .between => some []
  | .inName cs => (keywordTable.find? fun e => e.1 == cs.reverse).map fun e => [.name e.2]
  | .inZero => some [.number 0]
  | .inDecimal n => some [.number n]
  | .inHex n => n.map fun n => [.number n]
  | .inHexBytes _ _ => none
  | .inText _ => none

/-- A character outside a byte string, a name and a number. -/
def scanFresh (c : Char) (out : List Token) : Option (Scan × List Token) :=
  if isBlank c then some (.between, out)
  else match decDigit c with
    | some d => some (if d = 0 then .inZero else .inDecimal d, out)
    | none => if isNameChar c then some (.inName [c], out) else if isQuote c then none else some (.between, .mark c :: out)

/-- A character after the digits of a decimal, whose value so far is `n`. -/
def scanDecimal (n : Nat) (c : Char) (out : List Token) : Option (Scan × List Token) :=
  match decDigit c with
  | some d => some (.inDecimal (10 * n + d), out)
  | none => if isNameChar c then none else scanFresh c (.number n :: out)

/-- One character of the text; the tokens are kept last one first. -/
def scanChar (c : Char) : Scan → List Token → Option (Scan × List Token)
  | .between, out => scanFresh c out
  | .inName cs, out =>
    if isQuote c then
      if cs == ['h'] then some (.inHexBytes none [], out) else if cs == ['a'] then some (.inText [], out) else none
    else if isNameChar c then some (.inName (c :: cs), out)
    else (closeToken (.inName cs)).bind fun ts => scanFresh c (ts ++ out)
  | .inZero, out => if c == 'x' then some (.inHex none, out) else scanDecimal 0 c out
  | .inDecimal n, out => scanDecimal n c out
  | .inHex n, out =>
    match hexDigit c with
    | some d => some (.inHex (some (16 * n.getD 0 + d)), out)
    | none => if isNameChar c then none else (closeToken (.inHex n)).bind fun ts => scanFresh c (ts ++ out)
  | .inHexBytes none bs, out =>
    if isQuote c then some (.between, .bytes bs.reverse :: out)
    else if isBlank c then some (.inHexBytes none bs, out)
    else (hexDigit c).map fun d => (.inHexBytes (some d) bs, out)
  | .inHexBytes (some hi) bs, out => (hexDigit c).map fun d => (.inHexBytes none (BitVec.ofNat 8 (16 * hi + d) :: bs), out)
  | .inText bs, out =>
    if isQuote c then some (.between, .bytes bs.reverse :: out)
    else if c.toNat < 128 then some (.inText (BitVec.ofNat 8 c.toNat :: bs), out) else none

/-- The tokens of a text. -/
def tokensFrom : List Char → Scan → List Token → Option (List Token)
  | [], sc, out => (closeToken sc).map fun ts => (ts ++ out).reverse
  | c :: cs, sc, out => (scanChar c sc out).bind fun r => tokensFrom cs r.1 r.2

/-! ### Statements -/

/-- A line of R64, with what it may leave out left out. -/
inductive AsmLine where
  | construct (key nonce : List Byte) (counter : Option Nat)
  | process (input : List Byte)
  | encrypt (input : List Byte)
  | decrypt (input : List Byte)
  | block (key : List Nat) (counter : Nat) (nonce : List Nat) (rounds : Option Nat)
  | qround (a b c d : Nat) (v : List Nat)
  | build (key nonce : List Byte) (counter : Nat)
  | rdreg (reg : Nat)
  deriving DecidableEq, Repr

/-- The numbers of a bracketed list, after its opening bracket, and what follows the closing one. -/
def numberList : List Token → Option (List Nat × List Token)
  | .number n :: .mark ']' :: rest => some ([n], rest)
  | .number n :: .mark ',' :: rest => (numberList rest).map fun r => (n :: r.1, r.2)
  | _ => none

/-- The register names of R64 and their numbers (R15). -/
def registerNumber : Token → Option Nat
  | .number n => some n
  | .name .const0 => some 0
  | .name .const1 => some 1
  | .name .const2 => some 2
  | .name .const3 => some 3
  | .name .ctr => some 12
  | .name .status => some 16
  | .name .roundsDefault => some 17
  | _ => none

/-- The end of a BLOCK line, after its nonce list. -/
def blockRounds : List Token → Option (Option Nat)
  | [] => some none
  | [.mark ',', .name .rounds, .mark '=', .number r] => some (some r)
  | _ => none

/-- The operands of BLOCK, after `key=[`. -/
def blockLine (toks : List Token) : Option AsmLine :=
  (numberList toks).bind fun k =>
    match k.2 with
    | .mark ',' :: .name .counter :: .mark '=' :: .number c :: .mark ',' :: .name .nonce :: .mark '=' :: .mark '[' :: rest =>
      (numberList rest).bind fun n => (blockRounds n.2).map fun r => .block k.1 c n.1 r
    | _ => none

/-- The list operand of QROUND, after its opening bracket. -/
def qroundLine (a b c d : Nat) (toks : List Token) : Option AsmLine :=
  (numberList toks).bind fun v => if v.2.isEmpty then some (.qround a b c d v.1) else none

/-- A line of R64 from its tokens. -/
def parseLine : List Token → Option AsmLine
  | [.name .construct, .name .key, .mark '=', .bytes k, .mark ',', .name .nonce, .mark '=', .bytes n] => some (.construct k n none)
  | [.name .construct, .name .key, .mark '=', .bytes k, .mark ',', .name .nonce, .mark '=', .bytes n,
     .mark ',', .name .counter, .mark '=', .number c] => some (.construct k n (some c))
  | [.name .process, .bytes b] => some (.process b)
  | [.name .encrypt, .bytes b] => some (.encrypt b)
  | [.name .decrypt, .bytes b] => some (.decrypt b)
  | .name .block :: .name .key :: .mark '=' :: .mark '[' :: rest => blockLine rest
  | .name .qround :: .mark '(' :: .number a :: .mark ',' :: .number b :: .mark ',' :: .number c :: .mark ',' :: .number d ::
     .mark ')' :: .mark ',' :: .mark '[' :: rest => qroundLine a b c d rest
  | [.name .build, .name .key, .mark '=', .bytes k, .mark ',', .name .nonce, .mark '=', .bytes n,
     .mark ',', .name .counter, .mark '=', .number c] => some (.build k n c)
  | [.name .rdreg, r] => (registerNumber r).map .rdreg
  | _ => none

/-! ### Commands -/

/-- A number as an operand of `n` values, where it is one of them. -/
def asFin (n m : Nat) : Option (Fin n) := if h : m < n then some ⟨m, h⟩ else none

/-- A number as a word operand. -/
def asWord (m : Nat) : Option Word := if m < 2 ^ 32 then some (BitVec.ofNat 32 m) else none

/-- A list of `n` numbers as word operands. -/
def asWords (n : Nat) (ms : List Nat) : Option (Vector Word n) := (ms.mapM asWord).bind (toVec n)

/-- The command of a line. The lengths are the operands' own, "so a key of the wrong length is assembled faithfully and refused by
the core, not by the assembler" (R64); a counter or round count left out is the default; ENCRYPT and DECRYPT are PROCESS (R65). -/
def commandOf : AsmLine → Option Instr
  | .construct k n none => some (.construct k n Config.defaultCounter)
  | .construct k n (some c) => (asWord c).map (.construct k n)
  | .process b => some (.process b)
  | .encrypt b => some (.process b)
  | .decrypt b => some (.process b)
  | .block k c n r =>
    (asFin 256 (r.getD Config.defaultRounds)).bind fun r => (asWords 8 k).bind fun k => (asWord c).bind fun c =>
      (asWords 3 n).map fun n => .block r k c n
  | .qround a b c d v =>
    (asFin 16 a).bind fun a => (asFin 16 b).bind fun b => (asFin 16 c).bind fun c => (asFin 16 d).bind fun d =>
      (asWords 16 v).map fun v => .qround a b c d v
  | .build k n c => (toVec 32 k).bind fun k => (toVec 12 n).bind fun n => (asWord c).map fun c => .build k n c
  | .rdreg r => (asFin 32 r).map .rdreg

/-- The packet of a line, where the command has one. -/
def assembleLine (l : AsmLine) : Option Packet :=
  (commandOf l).bind fun i => if i.wellFormed then some (encode i) else none

/-- The packet of a line of text. -/
def assemble (text : String) : Option Packet :=
  (tokensFrom text.toList .between []).bind fun toks => (parseLine toks).bind assembleLine

end Sys2Proof.Machine
end

