-- ==== Sys2Proof/Safety.lean ====
section
/-!
DEFINITION. What counts as a safe run, in the terms the statements use: every response given so far is one that the spec allows, and
a loaded cipher is lost by reset alone.
-/

namespace Sys2Proof.Machine

/-- A response packet the spec allows: the status byte is one of `0x00` to `0x08` (R151), any status but `OK` is the whole response
(R50, R63), and a result is shorter than 2^28 bytes (R54, R63). -/
def legalResponse : Packet → Bool
  | [] => false
  | status :: payload => status.toNat ≤ 8 && (status == okCode || payload.isEmpty) && payload.length < 2 ^ 28

/-- Every response given since reset is legal. -/
def ResponsesLegal (s : State) : Prop := ∀ q ∈ s.responses, legalResponse q = true

/-- What of the state is architectural (R10): everything but the two ends of the port. -/
def SameArchState (s t : State) : Prop := t.x = s.x ∧ t.loaded = s.loaded

/-- Two states that no command can tell apart: alike in all but the registers, and in those too once a cipher is loaded. The
registers "hold no value" while `LOADED = 0` (R14, R21). -/
def SameToHost (s t : State) : Prop :=
  t.loaded = s.loaded ∧ t.inbox = s.inbox ∧ t.responses = s.responses ∧ (s.loaded = true → t.x = s.x)

/-- Two states alike in all but the key and the nonce: what every command except PROCESS is blind to (R141). -/
def SameButSecrets (s t : State) : Prop :=
  t.loaded = s.loaded ∧ t.inbox = s.inbox ∧ t.responses = s.responses ∧ ctrWord t.x = ctrWord s.x

/-- The number of chunks, and so of keystream blocks, of an `L`-byte buffer: `ceil(L / 64)` (R123). -/
def chunkCount (len : Nat) : Nat := (len + 63) / 64

end Sys2Proof.Machine
end

