-- ==== Sys2Proof/Certificates/Slice0/Obligations.lean ====
section
/-!
DEFINITION. The statements for the provers. A statement about a command says which next state `exec` answers; where it equates that
state with the one before but for `responses`, that is its frame: no register, no flag and nothing waiting at the port has changed.
The hardware has no memory and no program counter (R18, R30), so a frame has no such part.
-/

open Sys2Proof Sys2Proof.Machine

/-! ### Packets -/

/-- Every command that has a packet is what the decoder reads from that packet (R53 to R58, R61). -/
def Obligations.DecodeOfEncodeIsTheCommand : Prop :=
  ∀ i : Instr, i.wellFormed = true → decodePacket (encode i) = .ok i

/-- No two packets stand for one command, and every packet that decodes is the packet of a well-formed command (R59, R60: "no encoding
executes as another command"). -/
def Obligations.EncodeOfDecodeIsThePacket : Prop :=
  ∀ (p : Packet) (i : Instr), decodePacket p = .ok i → i.wellFormed = true ∧ encode i = p

/-- R61, R66: the decoder's tests in their order. A packet without a header is `E_FORMAT`, an opcode that names no command is
`E_OPCODE`, and of the six opcodes a packet is the command's exactly when the header matches under the command's mask and the payload
has the length the header implies, and `E_FORMAT` otherwise. -/
def Obligations.DecoderFollowsItsRule : Prop :=
  (∀ p : Packet, p.length < 4 → decodePacket p = .error .format) ∧
  ∀ (b0 b1 b2 b3 : Byte) (payload : List Byte) (h : Word) (d : Except DecodeError Instr),
    h = le32 b0 b1 b2 b3 → d = decodePacket (b0 :: b1 :: b2 :: b3 :: payload) →
    (bits h 31 28 = 0 ∨ 7 ≤ bits h 31 28 → d = .error .opcode) ∧
    (1 ≤ bits h 31 28 → bits h 31 28 ≤ 6 → d = .error .format ∨ ∃ i, d = .ok i) ∧
    ((∃ i, d = .ok i ∧ i.opcode = .construct) ↔
      h &&& 0xFFFF0000 = 0x10000000 ∧ payload.length = bits h 15 8 + bits h 7 0 + 4) ∧
    ((∃ i, d = .ok i ∧ i.opcode = .process) ↔ h &&& 0xF0000000 = 0x20000000 ∧ payload.length = bits h 27 0) ∧
    ((∃ i, d = .ok i ∧ i.opcode = .block) ↔ h &&& 0xFFFFFF00 = 0x30000000 ∧ payload.length = 48) ∧
    ((∃ i, d = .ok i ∧ i.opcode = .qround) ↔ h &&& 0xFFFF0000 = 0x40000000 ∧ payload.length = 64) ∧
    ((∃ i, d = .ok i ∧ i.opcode = .build) ↔ h &&& 0xFFFFFFFF = 0x50000000 ∧ payload.length = 48) ∧
    ((∃ i, d = .ok i ∧ i.opcode = .rdreg) ↔ h &&& 0xFFFFFFE0 = 0x60000000 ∧ payload.length = 0)

/-- R62: the header alone tells the length; no packet is shorter than RDREG's four bytes, and only PROCESS with `LEN = 2^28 - 1` has
`2^28 + 3`, the most. -/
def Obligations.PacketLengthBounds : Prop :=
  ∀ i : Instr, i.wellFormed = true →
    4 ≤ (encode i).length ∧ (encode i).length ≤ 2 ^ 28 + 3 ∧ ((∃ reg, i = .rdreg reg) → (encode i).length = 4) ∧
      ((encode i).length = 2 ^ 28 + 3 ↔ ∃ input, i = .process input ∧ input.length = 2 ^ 28 - 1) ∧
      ∀ j : Instr, j.wellFormed = true → (encode j).take 4 = (encode i).take 4 → (encode j).length = (encode i).length

/-- One packet of each of the spec's formats R53 to R58, written out byte by byte, decodes to the command it stands for. Four are packets
of `95_test_vectors.md` (V-REG-8, the nearest accepted of V-QR-11, V-BLK-8, V-STR-1); two are no vectors of the spec but built from its
formats: PROCESS of one byte from R54, BUILD from R57. -/
def Obligations.SpecPacketsDecode : Prop :=
  decodePacket [0x0c, 0x00, 0x00, 0x60] = .ok (.rdreg 12) ∧
  decodePacket [0x01, 0x00, 0x00, 0x20, 0x4c] = .ok (.process [0x4c]) ∧
  decodePacket ([0x12, 0x03, 0x00, 0x40] ++ List.replicate 64 0x00) = .ok (.qround 0 3 1 2 (Vector.replicate 16 0)) ∧
  decodePacket ([0x00, 0x00, 0x00, 0x50] ++ List.replicate 32 0xff ++ List.replicate 12 0x01 ++ [0x01, 0x00, 0x00, 0x00]) =
    .ok (.build (Vector.replicate 32 0xff) (Vector.replicate 12 0x01) 1) ∧
  decodePacket ([0x14, 0x00, 0x00, 0x30] ++ List.replicate 32 0x00 ++ [0x01, 0x00, 0x00, 0x00] ++ List.replicate 12 0x00) =
    .ok (.block 20 (Vector.replicate 8 0) 1 (Vector.replicate 3 0)) ∧
  decodePacket ([0x0c, 0x20, 0x00, 0x10] ++ List.replicate 32 0x00 ++ List.replicate 12 0x00 ++ [0x07, 0x00, 0x00, 0x00]) =
    .ok (.construct (List.replicate 32 0x00) (List.replicate 12 0x00) 7)

/-- R64, R65: the command of every line whose operands are in range. ENCRYPT and DECRYPT are PROCESS, a counter left out is 0 and a round
count left out is 20. A line whose command has a packet assembles to that packet, and from whatever assembles the decoder reads the
line's command. -/
def Obligations.AssembledLinesDecode : Prop :=
  (∀ b : List Byte, commandOf (.process b) = some (.process b) ∧ commandOf (.encrypt b) = some (.process b) ∧
    commandOf (.decrypt b) = some (.process b)) ∧
  (∀ key nonce : List Byte, commandOf (.construct key nonce none) = some (.construct key nonce 0) ∧
    ∀ c : Word, commandOf (.construct key nonce (some c.toNat)) = some (.construct key nonce c)) ∧
  (∀ (k : Vector Word 8) (c : Word) (n : Vector Word 3),
    commandOf (.block (k.toList.map BitVec.toNat) c.toNat (n.toList.map BitVec.toNat) none) = some (.block 20 k c n) ∧
    ∀ r : Fin 256,
      commandOf (.block (k.toList.map BitVec.toNat) c.toNat (n.toList.map BitVec.toNat) (some r.val)) = some (.block r k c n)) ∧
  (∀ (a b c d : Fin 16) (v : Vector Word 16),
    commandOf (.qround a.val b.val c.val d.val (v.toList.map BitVec.toNat)) = some (.qround a b c d v)) ∧
  (∀ (key : Vector Byte 32) (nonce : Vector Byte 12) (c : Word),
    commandOf (.build key.toList nonce.toList c.toNat) = some (.build key nonce c)) ∧
  (∀ reg : Fin 32, commandOf (.rdreg reg.val) = some (.rdreg reg)) ∧
  (∀ (l : AsmLine) (i : Instr), commandOf l = some i → i.wellFormed = true → assembleLine l = some (encode i)) ∧
  ∀ (l : AsmLine) (p : Packet), assembleLine l = some p → ∃ i, commandOf l = some i ∧ decodePacket p = .ok i

/-- R107: "the 48-byte payload of BLOCK is `key ++ bytes_le(ctr) ++ nonce`", for a host that holds key and nonce as bytes. -/
def Obligations.BlockPacketFromBytes : Prop :=
  ∀ (rounds : Fin 256) (key nonce : List Byte) (ctr : Word) (hk : key.length = 4 * 8) (hn : nonce.length = 4 * 3),
    decodePacket ([BitVec.ofNat 8 rounds.val, 0x00, 0x00, 0x30] ++ key ++ bytesLe ctr ++ nonce) =
      .ok (.block rounds (wordsOf 8 key hk) ctr (wordsOf 3 nonce hn))

/-! ### Steps -/

/-- A step runs the command of the packet that is next at the port, and takes the packet away from the port (R37, R39). -/
def Obligations.StepRunsTheDecodedCommand : Prop :=
  ∀ (s : State) (p : Packet) (rest : List PortEvent) (i : Instr),
    s.inbox = .command p :: rest → decodePacket p = .ok i → step s = exec i { s with inbox := rest }

/-- A packet that does not decode is answered by the status of its error, `0x07` or `0x08`, and by nothing else (R150, R158, R159). -/
def Obligations.StepAnswersUndecodablePackets : Prop :=
  ∀ (s : State) (p : Packet) (rest : List PortEvent), s.inbox = .command p :: rest →
    (decodePacket p = .error .opcode →
      step s = .next { s with inbox := rest, responses := s.responses ++ [[0x07]] }) ∧
    (decodePacket p = .error .format →
      step s = .next { s with inbox := rest, responses := s.responses ++ [[0x08]] })

/-- "nothing but a command packet or reset makes it act" (R168). -/
def Obligations.StepWaitsForAnEvent : Prop :=
  ∀ s : State, s.inbox = [] → step s = .next s

/-- A reset, between two commands or in the middle of one, leaves the reset state and no response, whatever the state was (R180,
R181). The registers are left out of the comparison: they hold no value then. -/
def Obligations.ResetLeavesTheResetState : Prop :=
  ∀ (s : State) (rest : List PortEvent), (s.inbox = .reset :: rest ∨ ∃ p, s.inbox = .commandCutByReset p :: rest) →
    ∃ t, step s = .next t ∧ SameToHost { State.reset with inbox := rest } t

/-- R21, R182: after reset no cipher is loaded, no response is pending and none of the commands that would read a register may. -/
def Obligations.ResetStateIsUnloaded : Prop :=
  State.reset.loaded = false ∧ State.reset.inbox = [] ∧ State.reset.responses = [] ∧
  exec (.rdreg 16) State.reset = .next { State.reset with responses := [[0x00, 0x00, 0x00, 0x00, 0x00]] } ∧
  exec (.rdreg 12) State.reset = .next { State.reset with responses := [[0x04]] } ∧
  ∀ input : List Byte, exec (.process input) State.reset = .next { State.reset with responses := [[0x04]] }

/-- No step of the core stops the machine: an error is a response (R150, R197). -/
def Obligations.EveryStepAnswersNext : Prop :=
  ∀ s : State, ∃ t, step s = .next t

/-- R50: exactly one response for each command packet, whatever the packet, and one the spec allows. -/
def Obligations.OneLegalResponsePerPacket : Prop :=
  ∀ (s : State) (p : Packet) (rest : List PortEvent), s.inbox = .command p :: rest →
    ∃ (t : State) (q : Packet), step s = .next t ∧ t.inbox = rest ∧ t.responses = s.responses ++ [q] ∧ legalResponse q = true

/-- Every step keeps the responses legal: a status `0x00` to `0x08`, no result unless `OK` (R50, R63, R151). -/
def Obligations.ResponsesStayLegal : Prop :=
  ∀ s t : State, ResponsesLegal s → step s = .next t → ResponsesLegal t

/-- The invariant of `ResponsesStayLegal` holds at reset. -/
def Obligations.ResponsesLegalAtReset : Prop :=
  ResponsesLegal State.reset

/-- "the registers `x[0..11]` hold no value and nothing may read them" (R14, R21): however many steps run, two states that differ only
in the registers of a cipher that was never loaded answer alike, and are the same once one is loaded. So no statement rests on the
reset value that log entry 1 chooses. -/
def Obligations.UnloadedRegistersNeverShow : Prop :=
  ∀ (k : Nat) (s s' t : State), SameToHost s s' → Host.Core.run Sys2Proof.core k s = .next t →
    ∃ t', Host.Core.run Sys2Proof.core k s' = .next t' ∧ SameToHost t t'

/-- R14: `LOADED` stays 1 until reset, and becomes 1 by a CONSTRUCT of the right lengths only. -/
def Obligations.LoadedUntilReset : Prop :=
  ∀ s t : State, step s = .next t →
    (s.loaded = true → t.loaded = false →
      (∃ rest, s.inbox = .reset :: rest) ∨ ∃ p rest, s.inbox = .commandCutByReset p :: rest) ∧
    (s.loaded = false → t.loaded = true →
      ∃ p rest key nonce ctr, s.inbox = .command p :: rest ∧ decodePacket p = .ok (.construct key nonce ctr) ∧
        key.length = 32 ∧ nonce.length = 12)

/-! ### Whole-machine rules over all commands -/

/-- R22: the edges of the cipher's state machine and no others. A successful CONSTRUCT loads what it was given; PROCESS of `L` bytes, a
cipher loaded, advances the counter by `ceil(L / 64)`; everything else leaves the state as it was; reset unloads. The counter's wrap is the spec's decision D14 (log entry 13). -/
def Obligations.CipherStateMachine : Prop :=
  (∀ (i : Instr) (s : State), ∃ t, exec i s = .next t ∧ t.inbox = s.inbox ∧
    ((∃ key nonce ctr, i = .construct key nonce ctr ∧ key.length = 32 ∧ nonce.length = 12 ∧ t.loaded = true ∧
        wordsToBytes (keyWords t.x).toList = key ∧ ctrWord t.x = ctr ∧ wordsToBytes (nonceWords t.x).toList = nonce) ∨
      (∃ input, i = .process input ∧ s.loaded = true ∧ t.loaded = true ∧ keyWords t.x = keyWords s.x ∧
        nonceWords t.x = nonceWords s.x ∧ ctrWord t.x = ctrWord s.x + BitVec.ofNat 32 ((input.length + 63) / 64)) ∨
      (SameArchState s t ∧ (∀ key nonce ctr, i = .construct key nonce ctr → key.length ≠ 32 ∨ nonce.length ≠ 12) ∧
        ∀ input, i = .process input → s.loaded = false))) ∧
  ∀ (s t : State) (rest : List PortEvent), (s.inbox = .reset :: rest ∨ ∃ p, s.inbox = .commandCutByReset p :: rest) →
    step s = .next t → t.loaded = false

/-- R12, R13: only CONSTRUCT writes the key, the nonce and `LOADED`; and only PROCESS, of the others, the counter. -/
def Obligations.OnlyConstructWritesKeyAndNonce : Prop :=
  ∀ (i : Instr) (s t : State), exec i s = .next t → i.opcode ≠ .construct →
    keyWords t.x = keyWords s.x ∧ nonceWords t.x = nonceWords s.x ∧ t.loaded = s.loaded ∧
      (i.opcode ≠ .process → ctrWord t.x = ctrWord s.x)

/-- R150: whatever the packet, a response whose status is not `OK` is that one byte, and the packet has changed nothing else: the next
command runs as if it had never been sent. -/
def Obligations.ErrorsLeaveTheStateAlone : Prop :=
  ∀ (s : State) (p : Packet) (rest : List PortEvent), s.inbox = .command p :: rest →
    ∃ (t : State) (status : Byte) (payload : List Byte), step s = .next t ∧ t.responses = s.responses ++ [status :: payload] ∧
      (status ≠ 0x00 → payload = [] ∧ t = { s with inbox := rest, responses := s.responses ++ [[status]] })

/-- R141: no command but PROCESS answers differently for another key or nonce. -/
def Obligations.SecretsShowInProcessOnly : Prop :=
  ∀ (i : Instr) (s s' : State), SameButSecrets s s' → i.opcode ≠ .process →
    ∃ t t', exec i s = .next t ∧ exec i s' = .next t' ∧ SameButSecrets t t'

/-- R105, R167: BLOCK, QROUND and BUILD answer the same in every state, RDREG the same in states alike in `LOADED` and `CTR`, and
the four write nothing. -/
def Obligations.DiagnosticCommandsArePure : Prop :=
  ∀ i : Instr,
    (i.opcode = .block ∨ i.opcode = .qround ∨ i.opcode = .build →
      ∃ q, ∀ s : State, exec i s = .next { s with responses := s.responses ++ [q] }) ∧
    (i.opcode = .rdreg → ∀ (loaded : Bool) (ctr : Word),
      ∃ q, ∀ s : State, s.loaded = loaded → ctrWord s.x = ctr → exec i s = .next { s with responses := s.responses ++ [q] })

/-! ### CONSTRUCT -/

/-- R120, R121, R133: the key's length is tested before the nonce's, a wrong length changes nothing, and otherwise all twelve
registers are written from the operands, whatever was there, and `LOADED` is set. -/
def Obligations.ConstructFollowsItsRule : Prop :=
  ∀ (key nonce : List Byte) (ctr : Word) (s : State),
    (key.length ≠ 32 → exec (.construct key nonce ctr) s = .next { s with responses := s.responses ++ [[0x01]] }) ∧
    (key.length = 32 → nonce.length ≠ 12 →
      exec (.construct key nonce ctr) s = .next { s with responses := s.responses ++ [[0x02]] }) ∧
    (key.length = 32 → nonce.length = 12 →
      ∃ t, exec (.construct key nonce ctr) s = .next t ∧ t.loaded = true ∧ t.inbox = s.inbox ∧
        t.responses = s.responses ++ [[0x00]] ∧
        (∀ (i : Nat) (_ : i < 8), t.x[i] =
          le32 (key.getD (4 * i) 0) (key.getD (4 * i + 1) 0) (key.getD (4 * i + 2) 0) (key.getD (4 * i + 3) 0)) ∧
        t.x[8] = ctr ∧
        ∀ (i : Nat) (_ : i < 3), t.x[9 + i] =
          le32 (nonce.getD (4 * i) 0) (nonce.getD (4 * i + 1) 0) (nonce.getD (4 * i + 2) 0) (nonce.getD (4 * i + 3) 0))

/-- R53: "The only header that passes validation is `0x1000200C`". -/
def Obligations.OneConstructHeaderSucceeds : Prop :=
  ∀ (s : State) (p : Packet) (rest : List PortEvent) (key nonce : List Byte) (ctr : Word),
    s.inbox = .command p :: rest → decodePacket p = .ok (.construct key nonce ctr) →
      ((∃ t, step s = .next t ∧ t.responses = s.responses ++ [[0x00]] ∧ t.loaded = true) ↔ p.take 4 = bytesLe 0x1000200C)

/-! ### PROCESS -/

/-- R122: with a cipher loaded PROCESS answers `OK` and as many bytes as it was given, each exclusive-ored with its byte of the keystream;
the counter advances by one for each chunk, modulo 2^32 (the spec's decision D14, log entry 13), and nothing else is written. The loop is
said by its closed form, the spec's own inference R132: byte `i` takes byte `i mod 64` of the block for the counter `c0 + i / 64`; and so
is the advance, `ceil(L / 64)` (R123). -/
def Obligations.ProcessFollowsItsRule : Prop :=
  ∀ (input : List Byte) (s : State), s.loaded = true →
    ∃ out : List Byte,
      exec (.process input) s = .next { s with
        x := s.x.set 8 (s.x[8] + BitVec.ofNat 32 ((input.length + 63) / 64)), responses := s.responses ++ [0x00 :: out] } ∧
      out.length = input.length ∧
      ∀ i, i < input.length → out.getD i 0 = input.getD i 0 ^^^
        (serialize (block (keyWords s.x) (ctrWord s.x + BitVec.ofNat 32 (i / 64)) (nonceWords s.x) 20 rfl)).getD (i % 64) 0

/-- R127, R155: without a cipher PROCESS answers `E_NOTLOADED`, whatever its buffer, and changes nothing. -/
def Obligations.ProcessWithoutCipher : Prop :=
  ∀ (input : List Byte) (s : State), s.loaded = false →
    exec (.process input) s = .next { s with responses := s.responses ++ [[0x04]] }

/-- R126: an empty buffer gives an empty result and does not advance the counter; without a cipher it is refused like any other. -/
def Obligations.ProcessOfAnEmptyBuffer : Prop :=
  ∀ s : State,
    (s.loaded = true → exec (.process []) s = .next { s with responses := s.responses ++ [[0x00]] }) ∧
    (s.loaded = false → exec (.process []) s = .next { s with responses := s.responses ++ [[0x04]] })

/-- R125: PROCESS of the output of PROCESS, from the same key, nonce and counter, gives the buffer back. It holds across a wrap of the
counter, which is the spec's decision D14 (log entry 13). -/
def Obligations.ProcessIsAnInvolution : Prop :=
  ∀ (input : List Byte) (s s' : State), s.loaded = true → s'.loaded = true → s'.x = s.x →
    ∃ (t t' : State) (out : List Byte),
      exec (.process input) s = .next t ∧ t.responses = s.responses ++ [0x00 :: out] ∧
      exec (.process out) s' = .next t' ∧ t'.responses = s'.responses ++ [0x00 :: input] ∧ t'.x = t.x

/-- R124, R186: a message cut at multiples of 64 and sent as several PROCESS commands, only the last piece of another length, gives
the bytes and leaves the registers of one PROCESS of the whole. The counter may wrap in it (the spec's decision D14, log entry 13), and
the whole may be longer than a packet can carry, where `exec` of it is the model's own (log entry 10). -/
def Obligations.MessageSplitAtBlocksIsWhole : Prop :=
  ∀ (parts : List (List Byte)) (last : List Byte) (s : State), s.loaded = true →
    (∀ b ∈ parts, b.length % 64 = 0 ∧ b.length < 2 ^ 28) → last.length < 2 ^ 28 →
    s.inbox = (parts ++ [last]).map (fun b => .command (encode (.process b))) →
    ∃ (t w : State) (outs : List (List Byte)),
      Host.Core.run Sys2Proof.core (parts.length + 1) s = .next t ∧
      t.responses = s.responses ++ outs.map (fun out => 0x00 :: out) ∧ t.inbox = [] ∧
      exec (.process (parts.flatten ++ last)) s = .next w ∧ w.responses = s.responses ++ [0x00 :: outs.flatten] ∧ t.x = w.x

/-- R166: two cores with the same key and nonce, the second started at the counter after the first part, give together what one core
gives for the whole, the first part being a multiple of 64 long. The counter may wrap in it (the spec's decision D14, log entry 13), and
each buffer may be longer than a packet can carry, where `exec` of it is the model's own (log entry 10). -/
def Obligations.TwoCoresShareAMessage : Prop :=
  ∀ (first second : List Byte) (s s' : State), s.loaded = true → s'.loaded = true →
    keyWords s'.x = keyWords s.x → nonceWords s'.x = nonceWords s.x → first.length % 64 = 0 →
    ctrWord s'.x = ctrWord s.x + BitVec.ofNat 32 (first.length / 64) →
    ∃ (t t' w : State) (out out' : List Byte),
      exec (.process first) s = .next t ∧ t.responses = s.responses ++ [0x00 :: out] ∧
      exec (.process second) s' = .next t' ∧ t'.responses = s'.responses ++ [0x00 :: out'] ∧
      exec (.process (first ++ second)) s = .next w ∧ w.responses = s.responses ++ [0x00 :: (out ++ out')]

/-- R131: after the block with counter `0xFFFFFFFF` comes the block with counter 0, silently: the status is `OK`. It rests on the
spec's decision D14 (log entry 13). -/
def Obligations.CounterWrapsSilently : Prop :=
  ∀ (input : List Byte) (s : State), s.loaded = true → s.x[8] = 0xFFFFFFFF → 1 ≤ input.length → input.length ≤ 64 →
    ∃ (t : State) (out : List Byte), exec (.process input) s = .next t ∧ t.responses = s.responses ++ [0x00 :: out] ∧ t.x[8] = 0 ∧
      t.loaded = true

/-- R142: RDREG of `CTR`, after any PROCESS commands, returns the counter advanced by the chunks processed since, modulo 2^32 (the wrap
is the spec's decision D14, log entry 13). -/
def Obligations.CounterReadbackCountsChunks : Prop :=
  ∀ (inputs : List (List Byte)) (s : State), s.loaded = true → (∀ b ∈ inputs, b.length < 2 ^ 28) →
    s.inbox = inputs.map (fun b => .command (encode (.process b))) ++ [.command (encode (.rdreg 12))] →
    ∃ (t : State) (outs : List Packet), Host.Core.run Sys2Proof.core (inputs.length + 1) s = .next t ∧
      outs.length = inputs.length ∧ t.inbox = [] ∧
      t.responses = s.responses ++ outs ++
        [0x00 :: bytesLe (s.x[8] + BitVec.ofNat 32 (inputs.map fun b => (b.length + 63) / 64).sum)]

/-- R132 with zero input, R107 (program P5): PROCESS of `64 m` zero bytes returns the results of `m` BLOCK commands with 20 rounds, the
loaded key and nonce, and successive counters, which may wrap (the spec's decision D14, log entry 13). A buffer of 2^28 bytes or more
has no packet, and `exec` of it is the model's own (log entry 10). -/
def Obligations.ProcessOfZerosIsBlocks : Prop :=
  ∀ (m : Nat) (s : State) (outs : Nat → List Byte), s.loaded = true →
    (∀ j, j < m → exec (.block 20 (keyWords s.x) (ctrWord s.x + BitVec.ofNat 32 j) (nonceWords s.x)) s =
      .next { s with responses := s.responses ++ [0x00 :: outs j] }) →
    ∃ t, exec (.process (List.replicate (64 * m) 0)) s = .next t ∧
      t.responses = s.responses ++ [0x00 :: (List.range m).flatMap outs]

/-! ### QROUND and the mixer -/

/-- R80, R83, R85: repeated indices are refused; otherwise the four words at the indices are those of the twelve assignments and the
other twelve are returned unchanged. -/
def Obligations.QroundFollowsItsRule : Prop :=
  ∀ (a b c d : Fin 16) (v : Vector Word 16) (s : State),
    (¬ Distinct a b c d → exec (.qround a b c d v) s = .next { s with responses := s.responses ++ [[0x05]] }) ∧
    (Distinct a b c d → ∃ v' : Vector Word 16,
      exec (.qround a b c d v) s = .next { s with responses := s.responses ++ [0x00 :: wordsToBytes v'.toList] } ∧
      (∀ j : Fin 16, j ≠ a → j ≠ b → j ≠ c → j ≠ d → v'[j] = v[j]) ∧
      ∃ a1 d1 c1 b1 : Word,
        a1 = v[a] + v[b] ∧ d1 = (v[d] ^^^ a1).rotateLeft 16 ∧ c1 = v[c] + d1 ∧ b1 = (v[b] ^^^ c1).rotateLeft 12 ∧
        v'[a] = a1 + b1 ∧ v'[d] = (d1 ^^^ v'[a]).rotateLeft 8 ∧ v'[c] = c1 + v'[d] ∧ v'[b] = (b1 ^^^ v'[c]).rotateLeft 7)

/-- R83: only the words at the four indices change, and on a list of any length they become what `QR4` makes of them. -/
def Obligations.QuarterRoundActsOnFourWords : Prop :=
  ∀ (n : Nat) (q : Quad n) (v : Vector Word n),
    (∀ j : Fin n, j ≠ q.a → j ≠ q.b → j ≠ q.c → j ≠ q.d → (qr v q)[j] = v[j]) ∧
    (qr v q)[q.a] = (qr4 v[q.a] v[q.b] v[q.c] v[q.d])[0] ∧ (qr v q)[q.b] = (qr4 v[q.a] v[q.b] v[q.c] v[q.d])[1] ∧
    (qr v q)[q.c] = (qr4 v[q.a] v[q.b] v[q.c] v[q.d])[2] ∧ (qr v q)[q.d] = (qr4 v[q.a] v[q.b] v[q.c] v[q.d])[3]

/-- D00's worked example (R80) and the corner cases of R86. -/
def Obligations.QuarterRoundVectors : Prop :=
  qr4 0x11111111 0x01020304 0x9B8D6F43 0x01234567 = #v[0xEA2A92F4, 0xCB1CF8CE, 0x4581472E, 0x5881C4BB] ∧
  qr4 0 0 0 0 = #v[0, 0, 0, 0] ∧
  qr4 0xFFFFFFFF 1 0 0 = #v[0x00001000, 0x08080000, 0x00100000, 0x00100000] ∧
  qr4 0xFFFFFFFF 0xFFFFFFFF 0xFFFFFFFF 0xFFFFFFFF = #v[0xF0000FFD, 0x88790878, 0x0110FDEF, 0x010FFDF0]

/-- R86: the quarter round is a bijection, at any four positions of a list of any length. -/
def Obligations.QuarterRoundIsBijective : Prop :=
  ∀ (n : Nat) (q : Quad n), Function.Bijective (fun v : Vector Word n => qr v q)

/-- R102: quarter rounds at disjoint positions commute, so the order inside a pass makes no difference. -/
def Obligations.DisjointQuarterRoundsCommute : Prop :=
  ∀ (n : Nat) (p q : Quad n) (v : Vector Word n),
    (∀ i ∈ [p.a, p.b, p.c, p.d], ∀ j ∈ [q.a, q.b, q.c, q.d], i ≠ j) → qr (qr v p) q = qr (qr v q) p

/-- R5, R81: bit `i` of `x` becomes bit `(i + n) mod 32` of the result. -/
def Obligations.RotationMovesEachBit : Prop :=
  ∀ (x : Word) (n : Nat), 1 ≤ n → n ≤ 31 → ∀ i, i < 32 → (rotl32 x n).getLsbD ((i + n) % 32) = x.getLsbD i

/-! ### BUILD and byte order -/

/-- R90, R95: `S = CONST ++ k ++ [ctr] ++ n`, and `S[4 + j] = x[j]` when the operands are the parameter registers. -/
def Obligations.InitialStateLayout : Prop :=
  ∀ x : Vector Word 12, ∀ S : Vector Word 16, S = buildState (keyWords x) (ctrWord x) (nonceWords x) →
    S[0] = 0x61707865 ∧ S[1] = 0x3320646e ∧ S[2] = 0x79622d32 ∧ S[3] = 0x6b206574 ∧
      ∀ (j : Nat) (_ : j < 12), S[4 + j] = x[j]

/-- R93, R96: the response of BUILD is the text "expand 32-byte k", the key unchanged, the counter's bytes and the nonce unchanged;
nothing is read or written. -/
def Obligations.BuildReturnsTextKeyCounterNonce : Prop :=
  ∀ (key : Vector Byte 32) (nonce : Vector Byte 12) (ctr : Word) (s : State),
    exec (.build key nonce ctr) s = .next { s with responses := s.responses ++
      [0x00 :: ([0x65, 0x78, 0x70, 0x61, 0x6e, 0x64, 0x20, 0x33, 0x32, 0x2d, 0x62, 0x79, 0x74, 0x65, 0x20, 0x6b] ++
        key.toList ++ bytesLe ctr ++ nonce.toList)] }

/-- R6: `le32` and `bytes_le` "are inverse bijections between 4-byte lists and words", the first byte being the
least significant, and `words_le` takes the words of a byte string one after another. -/
def Obligations.WordsAndBytesAreInverse : Prop :=
  (∀ b0 b1 b2 b3 : Byte, bytesLe (le32 b0 b1 b2 b3) = [b0, b1, b2, b3]) ∧
  (∀ w : Word, ∃ b0 b1 b2 b3 : Byte, bytesLe w = [b0, b1, b2, b3] ∧ le32 b0 b1 b2 b3 = w) ∧
  (∀ w : Word, w.toNat = ((bytesLe w).getD 0 0).toNat + 2 ^ 8 * ((bytesLe w).getD 1 0).toNat +
    2 ^ 16 * ((bytesLe w).getD 2 0).toNat + 2 ^ 24 * ((bytesLe w).getD 3 0).toNat) ∧
  (∀ bs : List Byte, bs.length % 4 = 0 → (wordsLe bs).length = bs.length / 4 ∧ ∀ i, i < bs.length / 4 →
    (wordsLe bs).getD i 0 = le32 (bs.getD (4 * i) 0) (bs.getD (4 * i + 1) 0) (bs.getD (4 * i + 2) 0) (bs.getD (4 * i + 3) 0))

/-- R106: `ks[4i + j] = bytes_le(w[i])[j]`, and `Serialize` is a bijection between 16-word lists and 64-byte lists, with the inverse
`words_le`. -/
def Obligations.SerializeIsABijection : Prop :=
  (∀ w : Vector Word 16, (serialize w).length = 64 ∧
    ∀ (i j : Nat) (_ : i < 16), j < 4 → (serialize w).getD (4 * i + j) 0 = (bytesLe w[i]).getD j 0) ∧
  (∀ w : Vector Word 16, wordsLe (serialize w) = w.toList) ∧
  ∀ bs : List Byte, bs.length = 64 → ∃! w : Vector Word 16, serialize w = bs

/-! ### BLOCK -/

/-- R100, R104, R107: an odd round count is refused; an even one returns, word by word, the sum of the initial state and of that state
after `ROUNDS / 2` double rounds, as 64 bytes. -/
def Obligations.BlockFollowsItsRule : Prop :=
  ∀ (rounds : Fin 256) (k : Vector Word 8) (ctr : Word) (n : Vector Word 3) (s : State),
    (rounds.val % 2 = 1 → exec (.block rounds k ctr n) s = .next { s with responses := s.responses ++ [[0x03]] }) ∧
    (rounds.val % 2 = 0 → ∃ w : Vector Word 16,
      exec (.block rounds k ctr n) s = .next { s with responses := s.responses ++ [0x00 :: wordsToBytes w.toList] } ∧
      ∀ (i : Nat) (_ : i < 16),
        w[i] = (doubleRound^[rounds.val / 2] (buildState k ctr n))[i] + (buildState k ctr n)[i])

/-- R101: the quarter round on the four columns of the 4 x 4 matrix, then on the four wrapped diagonals of what the columns left. -/
def Obligations.DoubleRoundMixesColumnsThenDiagonals : Prop :=
  ∀ w : Vector Word 16, ∃ u : Vector Word 16, ∀ (i : Nat) (_ : i < 4),
    #v[u[i], u[4 + i], u[8 + i], u[12 + i]] = qr4 w[i] w[4 + i] w[8 + i] w[12 + i] ∧
    #v[(doubleRound w)[i], (doubleRound w)[4 + (i + 1) % 4], (doubleRound w)[8 + (i + 2) % 4], (doubleRound w)[12 + (i + 3) % 4]] =
      qr4 u[i] u[4 + (i + 1) % 4] u[8 + (i + 2) % 4] u[12 + (i + 3) % 4]

/-- R104: with no rounds each word of the initial state comes back doubled, modulo 2^32. -/
def Obligations.BlockOfNoRoundsDoubles : Prop :=
  ∀ (k : Vector Word 8) (ctr : Word) (n : Vector Word 3) (s : State),
    exec (.block 0 k ctr n) s = .next { s with responses := s.responses ++
      [0x00 :: ((buildState k ctr n).toList.flatMap fun w => bytesLe (w + w))] }

/-- R108: the double round is a bijection on sixteen words, so the mixing never merges two states. -/
def Obligations.DoubleRoundsAreBijective : Prop :=
  ∀ m : Nat, Function.Bijective (doubleRounds m)

/-! ### RDREG -/

/-- R15, R140, R157: what each register number answers, and that a read writes nothing: the constants, the counter when a cipher is
loaded, `STATUS` with `LOADED` in bit 0, the default round count, and `E_REG` for every other number, the key's and the nonce's
among them. -/
def Obligations.RdregFollowsItsRule : Prop :=
  ∀ (reg : Fin 32) (s : State),
    (reg = 0 → exec (.rdreg reg) s = .next { s with responses := s.responses ++ [0x00 :: bytesLe 0x61707865] }) ∧
    (reg = 1 → exec (.rdreg reg) s = .next { s with responses := s.responses ++ [0x00 :: bytesLe 0x3320646e] }) ∧
    (reg = 2 → exec (.rdreg reg) s = .next { s with responses := s.responses ++ [0x00 :: bytesLe 0x79622d32] }) ∧
    (reg = 3 → exec (.rdreg reg) s = .next { s with responses := s.responses ++ [0x00 :: bytesLe 0x6b206574] }) ∧
    (reg = 12 → s.loaded = true → exec (.rdreg reg) s = .next { s with responses := s.responses ++ [0x00 :: bytesLe s.x[8]] }) ∧
    (reg = 12 → s.loaded = false → exec (.rdreg reg) s = .next { s with responses := s.responses ++ [[0x04]] }) ∧
    (reg = 16 → s.loaded = true → exec (.rdreg reg) s = .next { s with responses := s.responses ++ [0x00 :: bytesLe 1] }) ∧
    (reg = 16 → s.loaded = false → exec (.rdreg reg) s = .next { s with responses := s.responses ++ [0x00 :: bytesLe 0] }) ∧
    (reg = 17 → exec (.rdreg reg) s = .next { s with responses := s.responses ++ [0x00 :: bytesLe 20] }) ∧
    ((4 ≤ reg.val ∧ reg.val ≤ 11) ∨ (13 ≤ reg.val ∧ reg.val ≤ 15) ∨ 18 ≤ reg.val →
      exec (.rdreg reg) s = .next { s with responses := s.responses ++ [[0x06]] })
end

