-- ==== Sys2Proof/Laws/State.lean ====
section
/-!
SUPPORT. One lemma per field per update of State, so that no proof unfolds a record update.
-/

namespace Sys2Proof.Machine

variable (s : State) (q p : Packet) (c : Word)

@[simp] theorem emit_x : (emit q s).x = s.x := rfl
@[simp] theorem emit_loaded : (emit q s).loaded = s.loaded := rfl
@[simp] theorem emit_inbox : (emit q s).inbox = s.inbox := rfl
@[simp] theorem emit_responses : (emit q s).responses = s.responses ++ [q] := rfl

@[simp] theorem writeCtr_x : (writeCtr c s).x = s.x.set 8 c := rfl
@[simp] theorem writeCtr_loaded : (writeCtr c s).loaded = s.loaded := rfl
@[simp] theorem writeCtr_inbox : (writeCtr c s).inbox = s.inbox := rfl
@[simp] theorem writeCtr_responses : (writeCtr c s).responses = s.responses := rfl

@[simp] theorem setLoaded_x : (setLoaded s).x = s.x := rfl
@[simp] theorem setLoaded_loaded : (setLoaded s).loaded = true := rfl
@[simp] theorem setLoaded_inbox : (setLoaded s).inbox = s.inbox := rfl
@[simp] theorem setLoaded_responses : (setLoaded s).responses = s.responses := rfl

variable (k : Vector Word 8) (n : Vector Word 3)

@[simp] theorem loadCipher_x : (loadCipher k c n s).x = paramRegs k c n := rfl
@[simp] theorem loadCipher_loaded : (loadCipher k c n s).loaded = true := rfl
@[simp] theorem loadCipher_inbox : (loadCipher k c n s).inbox = s.inbox := rfl
@[simp] theorem loadCipher_responses : (loadCipher k c n s).responses = s.responses := rfl

@[simp] theorem applyReset_x : (applyReset s).x = State.reset.x := rfl
@[simp] theorem applyReset_loaded : (applyReset s).loaded = false := rfl
@[simp] theorem applyReset_inbox : (applyReset s).inbox = s.inbox := rfl
@[simp] theorem applyReset_responses : (applyReset s).responses = [] := rfl

@[simp] theorem present_x : (present p s).x = s.x := rfl
@[simp] theorem present_loaded : (present p s).loaded = s.loaded := rfl
@[simp] theorem present_inbox : (present p s).inbox = .command p :: s.inbox := rfl
@[simp] theorem present_responses : (present p s).responses = s.responses := rfl

@[simp] theorem reset_loaded : State.reset.loaded = false := rfl
@[simp] theorem reset_inbox : State.reset.inbox = [] := rfl
@[simp] theorem reset_responses : State.reset.responses = [] := rfl

/-! ### The parameter registers under their names (R11) -/

theorem keyWords_get (x : Vector Word 12) (i : Nat) (h : i < 8) : (keyWords x)[i] = x[i] := by
  unfold keyWords
  interval_cases i <;> rfl

theorem nonceWords_get (x : Vector Word 12) (i : Nat) (h : i < 3) : (nonceWords x)[i] = x[9 + i] := by
  unfold nonceWords
  interval_cases i <;> rfl

@[simp] theorem keyWords_setCtr (x : Vector Word 12) : keyWords (x.set 8 c) = keyWords x := by
  ext i h : 1
  rw [keyWords_get _ _ h, keyWords_get _ _ h, Vector.getElem_set_ne _ _ (by omega)]

@[simp] theorem nonceWords_setCtr (x : Vector Word 12) : nonceWords (x.set 8 c) = nonceWords x := by
  ext i h : 1
  rw [nonceWords_get _ _ h, nonceWords_get _ _ h, Vector.getElem_set_ne _ _ (by omega)]

@[simp] theorem ctrWord_setCtr (x : Vector Word 12) : ctrWord (x.set 8 c) = c := by
  simp [ctrWord]

@[simp] theorem keyWords_paramRegs : keyWords (paramRegs k c n) = k := by
  ext i h : 1
  rw [keyWords_get _ _ h]
  unfold paramRegs
  interval_cases i <;> rfl

@[simp] theorem ctrWord_paramRegs : ctrWord (paramRegs k c n) = c := rfl

@[simp] theorem nonceWords_paramRegs : nonceWords (paramRegs k c n) = n := by
  ext i h : 1
  rw [nonceWords_get _ _ h]
  unfold paramRegs
  interval_cases i <;> rfl

/-- The twelve registers are the key, the counter and the nonce, and nothing else (R11). -/
theorem regs_ext {x y : Vector Word 12} (hk : keyWords x = keyWords y) (hc : ctrWord x = ctrWord y)
    (hn : nonceWords x = nonceWords y) : x = y := by
  ext i h : 1
  rcases Nat.lt_trichotomy i 8 with h8 | rfl | h8
  · rw [← keyWords_get x i h8, ← keyWords_get y i h8, hk]
  · exact hc
  · obtain ⟨j, rfl⟩ : ∃ j, i = 9 + j := ⟨i - 9, by omega⟩
    rw [← nonceWords_get x j (by omega), ← nonceWords_get y j (by omega), hn]

end Sys2Proof.Machine
end

