-- ==== Sys2Proof/Laws/Bytes.lean ====
section
/-!
SUPPORT. Byte order (R6, R32, R106): the conversions between words and bytes are each other's inverse, and how long what they make is.
-/

namespace Sys2Proof

theorem bits_lt (w : Word) (hi lo : Nat) : bits w hi lo < 2 ^ (hi - lo + 1) := Nat.mod_lt _ (Nat.two_pow_pos _)

@[simp] theorem bytesLe_length (w : Word) : (bytesLe w).length = 4 := rfl

theorem le32_toNat (b0 b1 b2 b3 : Byte) :
    (le32 b0 b1 b2 b3).toNat = b0.toNat + 2 ^ 8 * b1.toNat + 2 ^ 16 * b2.toNat + 2 ^ 24 * b3.toNat := by
  have h0 := b0.isLt
  have h1 := b1.isLt
  have h2 := b2.isLt
  have h3 := b3.isLt
  rw [le32, BitVec.toNat_ofNat, Nat.mod_eq_of_lt (by omega)]

@[simp] theorem bytesLe_le32 (b0 b1 b2 b3 : Byte) : bytesLe (le32 b0 b1 b2 b3) = [b0, b1, b2, b3] := by
  have h0 := b0.isLt
  have h1 := b1.isLt
  have h2 := b2.isLt
  have h3 := b3.isLt
  simp only [bytesLe, bits, le32_toNat, List.cons.injEq, and_true]
  refine ⟨?_, ?_, ?_, ?_⟩ <;> apply BitVec.eq_of_toNat_eq <;> rw [BitVec.toNat_ofNat] <;> omega

/-- `le32` of `bytes_le` is the word (R6). -/
theorem le32_bytesLe (w : Word) :
    le32 (BitVec.ofNat 8 (bits w 7 0)) (BitVec.ofNat 8 (bits w 15 8)) (BitVec.ofNat 8 (bits w 23 16))
      (BitVec.ofNat 8 (bits w 31 24)) = w := by
  have h := w.isLt
  apply BitVec.eq_of_toNat_eq
  simp only [le32_toNat, BitVec.toNat_ofNat, bits]
  omega

@[simp] theorem wordFrom_bytesLe (w : Word) : wordFrom (bytesLe w) = some w := by
  simp only [bytesLe, wordFrom, le32_bytesLe]

theorem bytesLe_injective : Function.Injective bytesLe := fun a b h => by
  simpa using congrArg wordFrom h

@[simp] theorem wordsLe_bytesLe_append (w : Word) (rest : List Byte) :
    wordsLe (bytesLe w ++ rest) = w :: wordsLe rest := by
  simp only [bytesLe, List.cons_append, List.nil_append, wordsLe, le32_bytesLe]

@[simp] theorem wordsToBytes_nil : wordsToBytes [] = [] := rfl

@[simp] theorem wordsToBytes_cons (w : Word) (ws : List Word) :
    wordsToBytes (w :: ws) = bytesLe w ++ wordsToBytes ws := rfl

@[simp] theorem wordsToBytes_append (us ws : List Word) :
    wordsToBytes (us ++ ws) = wordsToBytes us ++ wordsToBytes ws := by
  simp [wordsToBytes]

@[simp] theorem wordsToBytes_length (ws : List Word) : (wordsToBytes ws).length = 4 * ws.length := by
  induction ws with
  | nil => rfl
  | cons w ws ih => simp [ih]; omega

@[simp] theorem wordsLe_wordsToBytes (ws : List Word) : wordsLe (wordsToBytes ws) = ws := by
  induction ws with
  | nil => rfl
  | cons w ws ih => rw [wordsToBytes_cons, wordsLe_bytesLe_append, ih]

theorem wordsToBytes_wordsLe (n : Nat) :
    ∀ bs : List Byte, bs.length = 4 * n → wordsToBytes (wordsLe bs) = bs := by
  induction n with
  | zero => intro bs h; simp_all [wordsLe, List.length_eq_zero_iff]
  | succ n ih =>
    intro bs h
    match bs, h with
    | b0 :: b1 :: b2 :: b3 :: rest, h =>
      have hr : rest.length = 4 * n := by simp only [List.length_cons] at h; omega
      simp [wordsLe, ih rest hr]
    | [], h => simp at h
    | [_], h => simp at h; omega
    | [_, _], h => simp at h; omega
    | [_, _, _], h => simp at h; omega

theorem wordsLe_getD (i : Nat) : ∀ (n : Nat) (bs : List Byte), bs.length = 4 * n → i < n →
    (wordsLe bs)[i]? = some (le32 (bs.getD (4 * i) 0) (bs.getD (4 * i + 1) 0) (bs.getD (4 * i + 2) 0) (bs.getD (4 * i + 3) 0)) := by
  induction i with
  | zero =>
    intro n bs h hn
    match bs, h with
    | b0 :: b1 :: b2 :: b3 :: rest, h => simp [wordsLe]
    | [], h => simp at h; omega
    | [_], h => simp at h; omega
    | [_, _], h => simp at h; omega
    | [_, _, _], h => simp at h; omega
  | succ i ih =>
    intro n bs h hn
    match bs, h with
    | b0 :: b1 :: b2 :: b3 :: rest, h =>
      have hr : rest.length = 4 * (n - 1) := by simp only [List.length_cons] at h; omega
      have := ih (n - 1) rest hr (by omega)
      simp only [wordsLe, List.getElem?_cons_succ, this]
      simp [show 4 * (i + 1) = 4 * i + 1 + 1 + 1 + 1 by ring, List.getD]
    | [], h => simp at h; omega
    | [_], h => simp at h; omega
    | [_, _], h => simp at h; omega
    | [_, _, _], h => simp at h; omega

@[simp] theorem toVec_toList {α : Type} {n : Nat} (v : Vector α n) : toVec n v.toList = some v := by
  unfold toVec
  rw [dif_pos (by simp)]
  rfl

theorem toVec_eq_some {α : Type} {n : Nat} {l : List α} {v : Vector α n} (h : toVec n l = some v) : v.toList = l := by
  unfold toVec at h
  split at h
  · cases h; rfl
  · cases h

namespace Machine

/-- Word `i` of a byte string (R12, R13, R92). -/
theorem wordsOf_get (n : Nat) (bs : List Byte) (h : bs.length = 4 * n) (i : Nat) (hi : i < n) :
    (wordsOf n bs h)[i] = le32 (bs.getD (4 * i) 0) (bs.getD (4 * i + 1) 0) (bs.getD (4 * i + 2) 0) (bs.getD (4 * i + 3) 0) := by
  have := wordsLe_getD i n bs h hi
  have hl := wordsLe_length n bs h
  rw [List.getElem?_eq_getElem (by omega)] at this
  exact Option.some.inj this

@[simp] theorem wordsOf_toList (n : Nat) (bs : List Byte) (h : bs.length = 4 * n) : (wordsOf n bs h).toList = wordsLe bs := rfl

@[simp] theorem serialize_length (w : Vector Word 16) : (serialize w).length = 64 := by
  simp [serialize]

/-- `Serialize` loses nothing (R106). -/
theorem serialize_injective : Function.Injective serialize := fun v w h => by
  have := congrArg wordsLe h
  simp only [serialize, wordsLe_wordsToBytes] at this
  exact Vector.toList_inj.mp this

end Machine

end Sys2Proof
end

