-- ==== Sys2Proof/Laws/Decode.lean ====
section
/-!
SUPPORT. Headers (R51 to R59): the fields of a header word, the opcode and the operands that the decoder reads from a command's own
header and payload, and what a decoded packet must have been.
-/

namespace Sys2Proof

/-! ### The shape of a packet -/

theorem decodePacket_bytesLe (h : Word) (payload : List Byte) : decodePacket (bytesLe h ++ payload) = decodeHeader h payload := by
  simp only [bytesLe, List.cons_append, List.nil_append, decodePacket, le32_bytesLe]

/-- A packet is too short, or it is a header and a payload (R50). -/
theorem packet_cases (p : Packet) : p.length < 4 ∨ ∃ h payload, p = bytesLe h ++ payload := by
  match p with
  | b0 :: b1 :: b2 :: b3 :: payload => exact .inr ⟨le32 b0 b1 b2 b3, payload, by simp⟩
  | [] => simp
  | [_] => simp
  | [_, _] => simp
  | [_, _, _] => simp

theorem decodePacket_short (p : Packet) (h : p.length < 4) : decodePacket p = .error .format := by
  match p, h with
  | [], _ => rfl
  | [_], _ => rfl
  | [_, _], _ => rfl
  | [_, _, _], _ => rfl

/-! ### The opcode -/

theorem opcodeOf_eq_some {h : Word} {op : Opcode} (ho : opcodeOf h = some op) : bits h 31 28 = op.number := by
  unfold opcodeOf at ho
  split at ho <;> cases ho <;> assumption

theorem opcodeOf_number {h : Word} (op : Opcode) (hn : bits h 31 28 = op.number) : opcodeOf h = some op := by
  unfold opcodeOf
  rw [hn]
  cases op <;> rfl

/-! ### What the decoder has checked -/

/-- A packet decodes exactly when its opcode names a command, its reserved bits are 0, its payload has the length the header implies,
and then to the command of its operands (R61). -/
theorem decodeHeader_eq_ok {h : Word} {payload : List Byte} {i : Instr} (hd : decodeHeader h payload = .ok i) :
    ∃ op, opcodeOf h = some op ∧ reservedBits op h = 0 ∧ payload.length = payloadBytes op h ∧ operands op h payload = some i := by
  unfold decodeHeader at hd
  split at hd
  · cases hd
  · rename_i op ho
    split at hd
    · cases hd
    · rename_i hr
      split at hd
      · cases hd
      · rename_i hl
        split at hd
        · rename_i j hj
          cases hd
          exact ⟨op, ho, not_not.mp hr, not_not.mp hl, hj⟩
        · cases hd

theorem decodeHeader_ok {h : Word} {payload : List Byte} {i : Instr} (op : Opcode) (hn : bits h 31 28 = op.number)
    (hr : reservedBits op h = 0) (hl : payload.length = payloadBytes op h) (ho : operands op h payload = some i) :
    decodeHeader h payload = .ok i := by
  simp only [decodeHeader, opcodeOf_number op hn, hr, hl, ho, ne_eq, not_true_eq_false, if_false]

/-! ### Payloads -/

theorem toVec_some {α : Type} {n : Nat} {l : List α} (h : l.length = n) : toVec n l = some ⟨l.toArray, h⟩ := by
  unfold toVec
  rw [dif_pos h]

theorem wordFrom_eq_some {bs : List Byte} {w : Word} (h : wordFrom bs = some w) : bs = bytesLe w := by
  match bs, h with
  | [b0, b1, b2, b3], h =>
    cases h
    simp
  | [], h => cases h
  | [_], h => cases h
  | [_, _], h => cases h
  | [_, _, _], h => cases h
  | _ :: _ :: _ :: _ :: _ :: _, h => cases h

/-- Four bytes are a word operand (R59). -/
theorem wordFrom_some {bs : List Byte} (h : bs.length = 4) : ∃ w, wordFrom bs = some w := by
  match bs, h with
  | [b0, b1, b2, b3], _ => exact ⟨_, rfl⟩

/-- Every payload of the length the header implies gives a command: the operands never fail after the checks of R61. -/
theorem operands_some (op : Opcode) (h : Word) (payload : List Byte) (hl : payload.length = payloadBytes op h) :
    ∃ i, operands op h payload = some i ∧ i.opcode = op := by
  cases op with
  | construct =>
    simp only [payloadBytes] at hl
    obtain ⟨w, hw⟩ := wordFrom_some (bs := payload.drop (bits h 15 8 + bits h 7 0)) (by simp; omega)
    exact ⟨.construct (payload.take (bits h 15 8)) ((payload.drop (bits h 15 8)).take (bits h 7 0)) w, by simp [operands, hw], rfl⟩
  | process => exact ⟨.process payload, rfl, rfl⟩
  | block =>
    simp only [payloadBytes] at hl
    obtain ⟨w, hw⟩ := wordFrom_some (bs := (payload.drop 32).take 4) (by simp; omega)
    have hk := Machine.wordsLe_length 8 (payload.take 32) (by simp; omega)
    have hn := Machine.wordsLe_length 3 (payload.drop 36) (by simp; omega)
    exact ⟨.block (bitField h 7 0) ⟨_, hk⟩ w ⟨_, hn⟩, by simp only [operands, toVec_some hk, hw, toVec_some hn], rfl⟩
  | qround =>
    simp only [payloadBytes] at hl
    have hv := Machine.wordsLe_length 16 payload (by omega)
    exact ⟨.qround (bitField h 15 12) (bitField h 11 8) (bitField h 7 4) (bitField h 3 0) ⟨_, hv⟩,
      by simp only [operands, toVec_some hv, Option.map_some], rfl⟩
  | build =>
    simp only [payloadBytes] at hl
    obtain ⟨w, hw⟩ := wordFrom_some (bs := payload.drop 44) (by simp; omega)
    have hk : (payload.take 32).length = 32 := by simp; omega
    have hn : ((payload.drop 32).take 12).length = 12 := by simp; omega
    exact ⟨.build ⟨_, hk⟩ ⟨_, hn⟩ w, by simp only [operands, toVec_some hk, toVec_some hn, hw], rfl⟩
  | rdreg => exact ⟨.rdreg _, rfl, rfl⟩

/-- The lowest bit that a command's mask keeps. -/
def Opcode.lowBit : Opcode → Nat
  | .construct => 16
  | .process => 28
  | .block => 8
  | .qround => 16
  | .build => 0
  | .rdreg => 5

/-- A mask that keeps bits `k` and above. -/
theorem toNat_and_highMask (h : Word) (k : Nat) (m : Word) (hm : m.toNat = (2 ^ 32 - 1) / 2 ^ k * 2 ^ k) :
    (h &&& m).toNat = h.toNat / 2 ^ k * 2 ^ k := by
  rw [BitVec.toNat_and, hm]
  apply Nat.eq_of_testBit_eq
  intro i
  rw [Nat.testBit_and, Nat.testBit_mul_two_pow, Nat.testBit_mul_two_pow, Nat.testBit_div_two_pow, Nat.testBit_div_two_pow,
    Nat.testBit_two_pow_sub_one]
  by_cases hi : k ≤ i
  · rw [show i - k + k = i by omega]
    by_cases hi32 : i < 32
    · simp [hi, hi32]
    · have : h.toNat.testBit i = false :=
        Nat.testBit_lt_two_pow (Nat.lt_of_lt_of_le h.isLt (Nat.pow_le_pow_right (by omega) (by omega)))
      simp [this]
  · simp [hi]

/-- R66: mask and match select a command exactly when the opcode is its number and its reserved bits are 0. -/
theorem Opcode.selects_iff (op : Opcode) (h : Word) :
    op.selects h = true ↔ bits h 31 28 = op.number ∧ reservedBits op h = 0 := by
  have hlt := h.isLt
  have hand : (h &&& op.maskWord).toNat = h.toNat / 2 ^ op.lowBit * 2 ^ op.lowBit :=
    toNat_and_highMask h _ _ (by cases op <;> decide)
  have hmatch : op.matchWord.toNat = 2 ^ 28 * op.number := by cases op <;> rfl
  rw [Opcode.selects, beq_iff_eq, ← BitVec.toNat_inj, hand, hmatch]
  clear hand hmatch
  cases op <;> simp only [Opcode.lowBit, Opcode.number, reservedBits, bits, and_true] <;> omega

end Sys2Proof
end

