-- ==== Sys2Proof/Laws/Process.lean ====
section
/-!
SUPPORT. The loop of PROCESS (R122) in closed form: the bytes exclusive-ored with the keystream, and the counter after all the chunks.
-/

namespace Sys2Proof.Machine

variable (k : Vector Word 8) (n : Vector Word 3)

@[simp] theorem keystream_length (c : Word) : (keystream k n c).length = 64 := by
  simp [keystream]

theorem xorBytes_length (chunk ks : List Byte) (h : chunk.length ≤ ks.length) : (xorBytes chunk ks).length = chunk.length := by
  simp [xorBytes, h]

/-- A write at the end of what has been written appends (R35). -/
theorem memWrite_end (out v : List Byte) : memWrite out out.length v = out ++ v := by
  simp [memWrite]

/-- Byte `i` of the input with its keystream byte, for every `i` (R132), the counter being `c` at the start. -/
def xorStream (c : Word) (input : List Byte) : List Byte :=
  input.mapIdx fun i b => b ^^^ (keystream k n (c + BitVec.ofNat 32 (i / 64))).getD (i % 64) 0

@[simp] theorem xorStream_length (c : Word) (input : List Byte) : (xorStream k n c input).length = input.length := by
  simp [xorStream]

theorem xorStream_short (c : Word) (chunk : List Byte) (h : chunk.length ≤ 64) :
    xorStream k n c chunk = xorBytes chunk (keystream k n c) := by
  apply List.ext_getElem
  · rw [xorStream_length, xorBytes_length _ _ (by simpa using h)]
  · intro i h1 h2
    have hi : i < 64 := by rw [xorStream_length] at h1; omega
    simp [xorStream, xorBytes, Nat.div_eq_of_lt hi, Nat.mod_eq_of_lt hi, List.getElem?_eq_getElem (show i < (keystream k n c).length by simpa using hi)]

/-- The stream over a buffer that begins with a whole number of chunks: the second part starts at the counter after them. -/
theorem xorStream_append (c : Word) (a b : List Byte) (m : Nat) (h : a.length = 64 * m) :
    xorStream k n c (a ++ b) = xorStream k n c a ++ xorStream k n (c + BitVec.ofNat 32 m) b := by
  unfold xorStream
  generalize keystream k n = ks
  rw [List.mapIdx_append]
  refine congrArg (List.append _) ?_
  apply List.ext_getElem
  · simp
  · intro i h1 h2
    simp only [List.getElem_mapIdx, h]
    rw [show (i + 64 * m) / 64 = m + i / 64 by omega, show (i + 64 * m) % 64 = i % 64 by omega, BitVec.ofNat_add, BitVec.add_assoc]

theorem xorStream_chunk (c : Word) (input : List Byte) :
    xorStream k n c input = xorBytes (input.take 64) (keystream k n c) ++ xorStream k n (c + 1) (input.drop 64) := by
  rcases Nat.lt_or_ge input.length 64 with h | h
  · rw [List.drop_eq_nil_of_le (by omega), List.take_of_length_le (by omega), xorStream_short k n c input (by omega)]
    simp [xorStream]
  · have hl : (input.take 64).length = 64 * 1 := by simp; omega
    have := xorStream_append k n c (input.take 64) (input.drop 64) 1 hl
    rw [List.take_append_drop] at this
    rw [this, xorStream_short k n c _ (by omega)]
    rfl

theorem chunkCount_zero : chunkCount 0 = 0 := rfl

theorem chunkCount_le (len : Nat) : chunkCount len ≤ len := by
  unfold chunkCount; omega

/-- What the loop leaves, from any turn on. -/
theorem processLoop_eq (input : List Byte) : ∀ (fuel off : Nat) (c : Word) (out : List Byte),
    out.length = min off input.length → chunkCount (input.length - off) ≤ fuel →
    processLoop k n input fuel off c out =
      (c + BitVec.ofNat 32 (chunkCount (input.length - off)), out ++ xorStream k n c (input.drop off)) := by
  intro fuel
  induction fuel with
  | zero =>
    intro off c out ho hf
    have h0 : chunkCount (input.length - off) = 0 := by omega
    have hle : input.length ≤ off := by unfold chunkCount at h0; omega
    rw [h0, List.drop_eq_nil_of_le hle]
    simp [processLoop, xorStream]
  | succ fuel ih =>
    intro off c out ho hf
    rw [processLoop]
    by_cases hlt : off < input.length
    · have hout : out.length = off := by omega
      have hks : (keystream k n c).length = 64 := keystream_length k n c
      have hchunk : memRead input off (min Config.blockBytes (input.length - off)) = (input.drop off).take 64 := by
        rw [memRead, ← List.length_drop, List.take_eq_take_min (i := 64)]; rfl
      have hxl : (xorBytes ((input.drop off).take 64) (keystream k n c)).length = min 64 (input.length - off) := by
        rw [xorBytes_length _ _ (by simp [hks])]; simp
      rw [if_pos hlt]
      simp only [hchunk]
      have hw : memWrite out off (xorBytes ((input.drop off).take 64) (keystream k n c)) =
          out ++ xorBytes ((input.drop off).take 64) (keystream k n c) := hout ▸ memWrite_end _ _
      rw [hw, ih]
      · have hcount : chunkCount (input.length - off) = 1 + chunkCount (input.length - (off + 64)) := by unfold chunkCount; omega
        rw [show Config.blockBytes = 64 from rfl, hcount, BitVec.ofNat_add, xorStream_chunk k n c (input.drop off), List.drop_drop,
          List.append_assoc, add32, BitVec.add_assoc]
        rfl
      · rw [List.length_append, hxl, show Config.blockBytes = 64 from rfl]; omega
      · rw [show Config.blockBytes = 64 from rfl]; unfold chunkCount at hf ⊢; omega
    · rw [if_neg hlt, show input.length - off = 0 by omega, List.drop_eq_nil_of_le (by omega)]
      simp [chunkCount, xorStream]

/-- PROCESS on a buffer: the counter after it, and the output (R122, R123, R132). -/
theorem processBuffer_eq (c : Word) (input : List Byte) :
    processBuffer k n c input = (c + BitVec.ofNat 32 (chunkCount input.length), xorStream k n c input) := by
  rw [processBuffer, processLoop_eq k n input input.length 0 c [] (by simp) (by simpa using chunkCount_le input.length)]
  simp

end Sys2Proof.Machine
end

