-- ==== Sys2Proof/Laws/QuarterRound.lean ====
section
/-!
SUPPORT. What the quarter round does, said once (R80, R83): four words become the four words of `quarterWords`, every other word is
unchanged. The provers cite these lemmas and do not unfold `qr`.
-/

namespace Sys2Proof.Machine

/-- The four-word function `QR4(p, q, r, s)` of R83. -/
def quarterWords (a b c d : Word) : Word × Word × Word × Word :=
  let a1 := add32 a b
  let d1 := rotl32 (d ^^^ a1) 16
  let c1 := add32 c d1
  let b1 := rotl32 (b ^^^ c1) 12
  let a2 := add32 a1 b1
  let d2 := rotl32 (d1 ^^^ a2) 8
  let c2 := add32 c1 d2
  let b2 := rotl32 (b1 ^^^ c2) 7
  (a2, b2, c2, d2)

/-- Two vectors alike at every index are the same. -/
theorem vector_ext_fin {α : Type} {n : Nat} {v w : Vector α n} (h : ∀ j : Fin n, v[j] = w[j]) : v = w :=
  Vector.ext fun i hi => h ⟨i, hi⟩

variable {n : Nat} (v : Vector Word n) (q : Quad n)

theorem Quad.val_ne : q.a.val ≠ q.b.val ∧ q.a.val ≠ q.c.val ∧ q.a.val ≠ q.d.val ∧ q.b.val ≠ q.c.val ∧ q.b.val ≠ q.d.val ∧
    q.c.val ≠ q.d.val := by
  obtain ⟨h1, h2, h3, h4, h5, h6⟩ := q.distinct
  exact ⟨Fin.val_ne_of_ne h1, Fin.val_ne_of_ne h2, Fin.val_ne_of_ne h3, Fin.val_ne_of_ne h4, Fin.val_ne_of_ne h5,
    Fin.val_ne_of_ne h6⟩

theorem qr_a : (qr v q)[q.a] = (quarterWords v[q.a] v[q.b] v[q.c] v[q.d]).1 := by
  obtain ⟨h1, h2, h3, h4, h5, h6⟩ := q.val_ne
  simp [qr, quarterWords, Fin.getElem_fin, h1, h2, h3, h4, h5, h6, h1.symm, h2.symm, h3.symm, h4.symm, h5.symm,
    h6.symm]

theorem qr_b : (qr v q)[q.b] = (quarterWords v[q.a] v[q.b] v[q.c] v[q.d]).2.1 := by
  obtain ⟨h1, h2, h3, h4, h5, h6⟩ := q.val_ne
  simp [qr, quarterWords, Fin.getElem_fin, h1, h2, h3, h4, h5, h6, h1.symm, h2.symm, h3.symm, h4.symm, h5.symm,
    h6.symm]

theorem qr_c : (qr v q)[q.c] = (quarterWords v[q.a] v[q.b] v[q.c] v[q.d]).2.2.1 := by
  obtain ⟨h1, h2, h3, h4, h5, h6⟩ := q.val_ne
  simp [qr, quarterWords, Fin.getElem_fin, h1, h2, h3, h4, h5, h6, h1.symm, h2.symm, h3.symm, h4.symm, h5.symm,
    h6.symm]

theorem qr_d : (qr v q)[q.d] = (quarterWords v[q.a] v[q.b] v[q.c] v[q.d]).2.2.2 := by
  obtain ⟨h1, h2, h3, h4, h5, h6⟩ := q.val_ne
  simp [qr, quarterWords, Fin.getElem_fin, h1, h2, h3, h4, h5, h6, h1.symm, h2.symm, h3.symm, h4.symm, h5.symm,
    h6.symm]

/-- Every other element is returned unchanged (R83). -/
theorem qr_other (j : Fin n) (ha : j ≠ q.a) (hb : j ≠ q.b) (hc : j ≠ q.c) (hd : j ≠ q.d) : (qr v q)[j] = v[j] := by
  have ha := (Fin.val_ne_of_ne ha).symm
  have hb := (Fin.val_ne_of_ne hb).symm
  have hc := (Fin.val_ne_of_ne hc).symm
  have hd := (Fin.val_ne_of_ne hd).symm
  simp [qr, Fin.getElem_fin, Vector.getElem_set, ha, hb, hc, hd]

/-- The rotation is the left rotation over 32 bits (R5, R81). -/
theorem rotl32_eq_rotateLeft (x : Word) (m : Nat) (h0 : 1 ≤ m) (h : m ≤ 31) : rotl32 x m = x.rotateLeft m := by
  rw [rotl32, BitVec.rotateLeft_def, Nat.mod_eq_of_lt (by omega)]
  apply BitVec.add_eq_or_of_and_eq_zero
  ext i hi
  simp only [BitVec.getElem_and, BitVec.getElem_shiftLeft, BitVec.getElem_ushiftRight, BitVec.getElem_zero]
  by_cases hm : i < m
  · simp [hm]
  · rw [BitVec.getLsbD_of_ge x (32 - m + i) (by omega), Bool.and_false]

end Sys2Proof.Machine
end

