-- ==== Sys2Proof/Laws/Meanings.lean ====
section
/-!
SUPPORT. Everything each meaning can do, said once: a meaning always answers a next state, and this is what it holds.
-/

namespace Sys2Proof.Machine

theorem finish_eq (payload : List Byte) (s : State) : finish payload s = .next (emit (okCode :: payload) s) := rfl

theorem raiseError_eq (c : Cause) (s : State) : raiseError c s = .next (emit [c.code] s) := rfl

theorem requireLoaded_true {s : State} {r : Result} (h : s.loaded = true) : requireLoaded s r = r := by
  simp [requireLoaded, h]

theorem requireLoaded_false {s : State} {r : Result} (h : s.loaded = false) :
    requireLoaded s r = .next (emit [Cause.notLoaded.code] s) := by
  simp [requireLoaded, h, raiseError_eq]

/-- Every status byte of an error is one of `0x01` to `0x08` (R151). -/
theorem Cause.code_range (c : Cause) : 1 ≤ c.code.toNat ∧ c.code.toNat ≤ 8 := by
  cases c <;> decide

/-- CONSTRUCT loads the cipher, or one of the two lengths is wrong (R120, R121). -/
theorem execConstruct_cases (key nonce : List Byte) (c : Word) (s : State) :
    (∃ (hk : key.length = 4 * 8) (hn : nonce.length = 4 * 3),
      execConstruct key nonce c s = .next (emit [okCode] (loadCipher (wordsOf 8 key hk) c (wordsOf 3 nonce hn) s))) ∨
    (key.length = 32 ∧ nonce.length ≠ 12 ∧ execConstruct key nonce c s = .next (emit [Cause.nonceLen.code] s)) ∨
    (key.length ≠ 32 ∧ execConstruct key nonce c s = .next (emit [Cause.keyLen.code] s)) := by
  unfold execConstruct
  by_cases hk : key.length = Config.keyBytes
  · by_cases hn : nonce.length = Config.nonceBytes
    · exact .inl ⟨hk, hn, by rw [dif_pos hk, dif_pos hn]; rfl⟩
    · exact .inr (.inl ⟨hk, hn, by rw [dif_pos hk, dif_neg hn]; rfl⟩)
  · exact .inr (.inr ⟨hk, by rw [dif_neg hk]; rfl⟩)

/-- PROCESS with a cipher loaded (R122): the output of the stream, and the counter advanced by the number of chunks. -/
theorem execProcess_loaded (input : List Byte) {s : State} (h : s.loaded = true) :
    execProcess input s = .next (emit (okCode :: xorStream (keyWords s.x) (nonceWords s.x) (ctrWord s.x) input)
      (writeCtr (ctrWord s.x + BitVec.ofNat 32 (chunkCount input.length)) s)) := by
  rw [execProcess, requireLoaded_true h, processBuffer_eq]
  rfl

/-- PROCESS without a cipher (R127). -/
theorem execProcess_unloaded (input : List Byte) {s : State} (h : s.loaded = false) :
    execProcess input s = .next (emit [Cause.notLoaded.code] s) := by
  rw [execProcess, requireLoaded_false h]

/-! ### The diagnostic commands give one response and do nothing else (R167) -/

theorem execBlock_even {rounds : Fin 256} (h : rounds.val % 2 = 0) (k : Vector Word 8) (c : Word) (n : Vector Word 3) (s : State) :
    execBlock rounds k c n s = .next (emit (okCode :: serialize (block k c n rounds.val h)) s) := by
  rw [execBlock, dif_pos h]
  rfl

theorem execBlock_odd {rounds : Fin 256} (h : rounds.val % 2 ≠ 0) (k : Vector Word 8) (c : Word) (n : Vector Word 3) (s : State) :
    execBlock rounds k c n s = .next (emit [Cause.rounds.code] s) := by
  rw [execBlock, dif_neg h]
  rfl

theorem execQround_distinct {a b c d : Fin 16} (h : Distinct a b c d) (v : Vector Word 16) (s : State) :
    execQround a b c d v s = .next (emit (okCode :: serialize (qr v ⟨a, b, c, d, h⟩)) s) := by
  rw [execQround, dif_pos h]
  rfl

theorem execQround_repeated {a b c d : Fin 16} (h : ¬ Distinct a b c d) (v : Vector Word 16) (s : State) :
    execQround a b c d v s = .next (emit [Cause.index.code] s) := by
  rw [execQround, dif_neg h]
  rfl

theorem execBuild_eq (key : Vector Byte 32) (nonce : Vector Byte 12) (c : Word) (s : State) :
    execBuild key nonce c s = .next (emit (okCode :: serialize (buildStateBytes key nonce c)) s) := rfl

theorem execRdreg_value {reg : Fin 32} {s : State} {w : Word} (h : readRegister reg s = .ok w) :
    execRdreg reg s = .next (emit (okCode :: bytesLe w) s) := by
  rw [execRdreg, h]
  rfl

theorem execRdreg_error {reg : Fin 32} {s : State} {c : Cause} (h : readRegister reg s = .error c) :
    execRdreg reg s = .next (emit [c.code] s) := by
  rw [execRdreg, h]
  rfl

/-- RDREG reads `LOADED` and, loaded, `CTR`: states alike in both answer alike (R140, R141). -/
theorem readRegister_congr (reg : Fin 32) {s t : State} (hl : t.loaded = s.loaded)
    (hc : s.loaded = true → ctrWord t.x = ctrWord s.x) : readRegister reg t = readRegister reg s := by
  unfold readRegister
  rw [hl]
  cases h : s.loaded
  · rfl
  · rw [hc h]

/-! ### The port -/

theorem step_empty {s : State} (h : s.inbox = []) : step s = .next s := by
  simp [step, takeEvent, h, idle]

theorem step_command {s : State} {p : Packet} {rest : List PortEvent} (h : s.inbox = .command p :: rest) :
    step s = runPacket p { s with inbox := rest } := by
  simp [step, takeEvent, h]

theorem step_cut {s : State} {p : Packet} {rest : List PortEvent} (h : s.inbox = .commandCutByReset p :: rest) :
    step s = .next (applyReset { s with inbox := rest }) := by
  simp [step, takeEvent, h]

theorem step_reset {s : State} {rest : List PortEvent} (h : s.inbox = .reset :: rest) :
    step s = .next (applyReset { s with inbox := rest }) := by
  simp [step, takeEvent, h]

theorem runPacket_ok {p : Packet} {i : Instr} (h : decodePacket p = .ok i) (s : State) : runPacket p s = exec i s := by
  simp [runPacket, h]

theorem runPacket_error {p : Packet} {e : DecodeError} (h : decodePacket p = .error e) (s : State) :
    runPacket p s = .next (emit [(decodeCause e).code] s) := by
  simp [runPacket, h, raiseError_eq]

/-! ### Runs -/

theorem run_succ_of_step (M : Host.Core) (m : Nat) (s u : M.State) (h : M.step s = .next u) : M.run (m + 1) s = M.run m u := by
  rw [Host.Core.run, h]

theorem run_zero (s : State) : Host.Core.run Sys2Proof.core 0 s = .next s := rfl

/-- A run of one more step goes on from the state that its first step leaves (R37). -/
theorem run_succ {s u : State} (h : step s = .next u) (m : Nat) :
    Host.Core.run Sys2Proof.core (m + 1) s = Host.Core.run Sys2Proof.core m u :=
  run_succ_of_step Sys2Proof.core m s u h

end Sys2Proof.Machine
end

