-- ==== Sys2Proof/Laws/PerInstr.lean ====
section
/-!
SUPPORT. The family `HeaderLength`: for every command that has a packet, the header alone tells the packet's length (R62), and the
header is the command's own row of the opcode map (R52).
-/

namespace Sys2Proof.Laws.HeaderLength

/-- R62: "`4 +` the payload-bytes column of rule R52", computed from the command's own header, whose opcode is the command's. -/
def Statement (i : Instr) : Prop :=
  i.wellFormed = true →
    bits (headerWord i) 31 28 = i.opcode.number ∧ reservedBits i.opcode (headerWord i) = 0 ∧
      (encode i).length = 4 + payloadBytes i.opcode (headerWord i)

theorem construct (key nonce : List Byte) (counter : Word) : Statement (.construct key nonce counter) := by
  intro h
  simp only [Instr.wellFormed, Bool.and_eq_true, decide_eq_true_eq] at h
  simp only [Instr.opcode, Opcode.number, reservedBits, payloadBytes, headerWord, encode, payloadOf, List.length_append,
    bytesLe_length, bits, BitVec.toNat_ofNat]
  omega

theorem process (input : List Byte) : Statement (.process input) := by
  intro h
  simp only [Instr.wellFormed, decide_eq_true_eq] at h
  simp only [Instr.opcode, Opcode.number, reservedBits, payloadBytes, headerWord, encode, payloadOf, List.length_append,
    bytesLe_length, bits, BitVec.toNat_ofNat,
    true_and]
  omega

theorem block (rounds : Fin 256) (k : Vector Word 8) (ctr : Word) (n : Vector Word 3) : Statement (.block rounds k ctr n) := by
  intro _
  have h := rounds.isLt
  simp only [Instr.opcode, Opcode.number, reservedBits, payloadBytes, headerWord, encode, payloadOf, List.length_append,
    bytesLe_length, wordsToBytes_length, Vector.length_toList, bits, BitVec.toNat_ofNat,
    and_true]
  omega

theorem qround (a b c d : Fin 16) (v : Vector Word 16) : Statement (.qround a b c d v) := by
  intro _
  have ha := a.isLt
  have hb := b.isLt
  have hc := c.isLt
  have hd := d.isLt
  simp only [Instr.opcode, Opcode.number, reservedBits, payloadBytes, headerWord, encode, payloadOf, List.length_append,
    bytesLe_length, wordsToBytes_length, Vector.length_toList, bits, BitVec.toNat_ofNat,
    and_true]
  omega

theorem build (key : Vector Byte 32) (nonce : Vector Byte 12) (counter : Word) : Statement (.build key nonce counter) := by
  intro _
  refine ⟨show bits 0x50000000 31 28 = 5 by decide, show bits 0x50000000 27 0 = 0 by decide, ?_⟩
  simp [Instr.opcode, payloadBytes, encode, payloadOf]

theorem rdreg (reg : Fin 32) : Statement (.rdreg reg) := by
  intro _
  have h := reg.isLt
  simp only [Instr.opcode, Opcode.number, reservedBits, payloadBytes, headerWord, encode, payloadOf, List.length_append,
    bytesLe_length, List.length_nil, bits, BitVec.toNat_ofNat,
    and_true]
  omega

end Sys2Proof.Laws.HeaderLength
end

