-- ==== Sys2Proof/Tests/Slice0.lean ====
section
/-!
SUPPORT. Tests. Every expected value is from `95_test_vectors.md` or from the encodings of `30_encoding.md`, named at each test. After
them, for every statement with hypotheses, a witness: a concrete state and operands that meet its hypotheses together.
-/

open Sys2Proof Sys2Proof.Machine

namespace Sys2Proof.Tests

/-! ### States and readings -/

/-- A core with a cipher loaded. -/
def loadedWith (k : Vector Word 8) (c : Word) (n : Vector Word 3) : State :=
  { State.reset with x := paramRegs k c n, loaded := true }

/-- The all-zero cipher with counter `c`. -/
def zeroCipher (c : Word) : State := loadedWith (Vector.replicate 8 0) c (Vector.replicate 3 0)

/-- The key words of the key bytes `00 01 .. 1f`. -/
def countingKey : Vector Word 8 := #v[0x03020100, 0x07060504, 0x0b0a0908, 0x0f0e0d0c, 0x13121110, 0x17161514, 0x1b1a1918, 0x1f1e1d1c]

/-- The core with packets waiting. -/
def withPackets (s : State) (ps : List Packet) : State := { s with inbox := ps.map .command }

/-- The last response, and the counter, of what an outcome leaves. -/
def lastResponse : Result → Option Packet
  | .next s => s.responses.getLast?
  | .fault _ => none
  | .refused _ => none

def counterAfter : Result → Option Word
  | .next s => some (ctrWord s.x)
  | .fault _ => none
  | .refused _ => none

/-! ### Well-formedness: each check refuses, and accepts at its bound -/

theorem test_wellFormed_refuses_key : (Instr.construct (List.replicate 256 0) [] 0).wellFormed = false := by decide +kernel
theorem test_wellFormed_refuses_nonce : (Instr.construct [] (List.replicate 256 0) 0).wellFormed = false := by decide +kernel
theorem test_wellFormed_accepts_lengths :
    (Instr.construct (List.replicate 255 0) (List.replicate 255 0) 0).wellFormed = true := by decide +kernel
theorem test_wellFormed_refuses_buffer : (Instr.process (List.replicate (2 ^ 28) 0)).wellFormed = false := by
  simp only [Instr.wellFormed, List.length_replicate]; decide
theorem test_wellFormed_accepts_buffer : (Instr.process (List.replicate (2 ^ 28 - 1) 0)).wellFormed = true := by
  simp only [Instr.wellFormed, List.length_replicate]; decide

/-! ### Decoding: the header bit by bit, from the formats R53 to R58; zero payloads -/

/-- R53: OPC 0001, reserved, KLEN 2, NLEN 1. -/
theorem test_decode_construct : decodeTableWord 32 0b0001_0000_0000_0000_0000_0010_0000_0001 = some (.construct [0, 0] [0] 0) := by decide
/-- R54: OPC 0010, LEN 3. -/
theorem test_decode_process : decodeTableWord 32 0b0010_0000_0000_0000_0000_0000_0000_0011 = some (.process [0, 0, 0]) := by decide
/-- R55: OPC 0011, reserved, ROUNDS 20. -/
theorem test_decode_block : decodeTableWord 32 0b0011_0000_0000_0000_0000_0000_0001_0100 =
    some (.block 20 (Vector.replicate 8 0) 0 (Vector.replicate 3 0)) := by decide
/-- R56: OPC 0100, reserved, A 2, B 7, C 8, D 13. -/
theorem test_decode_qround : decodeTableWord 32 0b0100_0000_0000_0000_0010_0111_1000_1101 =
    some (.qround 2 7 8 13 (Vector.replicate 16 0)) := by decide
/-- R57: OPC 0101, reserved. -/
theorem test_decode_build : decodeTableWord 32 0b0101_0000_0000_0000_0000_0000_0000_0000 =
    some (.build (Vector.replicate 32 0) (Vector.replicate 12 0) 0) := by decide
/-- R58: OPC 0110, reserved, REG 17. -/
theorem test_decode_rdreg : decodeTableWord 32 0b0110_0000_0000_0000_0000_0000_0001_0001 = some (.rdreg 17) := by decide
/-- R55, R32: the order of the operands and of their bytes. -/
theorem test_decode_block_payload :
    decodePacket ([0x08, 0x00, 0x00, 0x30] ++ [0x01, 0x02, 0x03, 0x04] ++ List.replicate 28 0x00 ++ [0x0a, 0x00, 0x00, 0x00] ++
      [0x0b, 0x00, 0x00, 0x00] ++ List.replicate 8 0x00) =
      .ok (.block 8 #v[0x04030201, 0, 0, 0, 0, 0, 0, 0] 0x0a #v[0x0b, 0, 0]) := by decide
/-- R53: key, nonce, counter in this order. -/
theorem test_decode_construct_payload :
    decodePacket [0x01, 0x02, 0x00, 0x10, 0xaa, 0xbb, 0xcc, 0x78, 0x56, 0x34, 0x12] = .ok (.construct [0xaa, 0xbb] [0xcc] 0x12345678) := by
  decide
/-- V-DEC-1 to V-DEC-5, V-SB-5, V-STR-10, V-BLK-9. -/
theorem test_decode_refusals :
    decodePacket [0x00, 0x00, 0x00, 0x00] = .error .opcode ∧ decodePacket [0x00, 0x00, 0x00, 0x70] = .error .opcode ∧
    decodePacket [0x00, 0x00, 0x00, 0xf0] = .error .opcode ∧ decodePacket [0x00, 0x00, 0x60] = .error .format ∧
    decodePacket [0x00, 0x01, 0x00, 0x60] = .error .format ∧ decodePacket [0x0c, 0x00, 0x00, 0x60, 0x00] = .error .format ∧
    decodePacket ([0x01, 0x00, 0x00, 0x50] ++ List.replicate 48 0) = .error .format ∧
    decodePacket [0x02, 0x00, 0x00, 0x20, 0x00] = .error .format ∧
    decodePacket ([0x0c, 0x20, 0x01, 0x10] ++ List.replicate 48 0) = .error .format ∧
    decodePacket ([0x14, 0x00, 0x00, 0x30] ++ List.replicate 47 0) = .error .format := by decide
/-- P1 line 1: the encoder. -/
theorem test_encode_construct :
    encode (.construct (List.replicate 32 0x11) (List.replicate 12 0x22) 1) =
      [0x0c, 0x20, 0x00, 0x10] ++ List.replicate 32 0x11 ++ List.replicate 12 0x22 ++ [0x01, 0x00, 0x00, 0x00] := by decide

/-! ### Meanings, one command each -/

/-- R120's worked example. -/
theorem test_construct_loads :
    (match execConstruct [0, 1, 2, 3, 4, 5, 6, 7, 8, 9, 10, 11, 12, 13, 14, 15, 16, 17, 18, 19, 20, 21, 22, 23, 24, 25, 26, 27, 28, 29, 30, 31]
        [0, 0, 0, 0, 0, 0, 0, 0x4a, 0, 0, 0, 0] 1 State.reset with
      | .next s => s.x == paramRegs countingKey 1 #v[0, 0x4a000000, 0] && s.loaded && s.responses == [[0x00]]
      | _ => false) = true := by decide
/-- V-STR-5: both lengths wrong, the key is reported. -/
theorem test_construct_reports_key_first :
    lastResponse (execConstruct (List.replicate 16 0) (List.replicate 8 0) 0 State.reset) = some [0x01] := by decide
/-- S6, the eight bytes that are D00's: "Ladies a" under the counting key. -/
theorem test_process_source_vector :
    lastResponse (execProcess [0x4c, 0x61, 0x64, 0x69, 0x65, 0x73, 0x20, 0x61] (loadedWith countingKey 1 #v[0, 0x4a000000, 0])) =
      some [0x00, 0x6e, 0x2e, 0x35, 0x9a, 0x25, 0x68, 0xf9, 0x80] := by decide +kernel
/-- P4: 65 zero bytes from counter `0xFFFFFFFF`: the wrap, the second block's one byte, the counter. -/
theorem test_process_wraps :
    lastResponse (execProcess (List.replicate 65 0) (zeroCipher 0xFFFFFFFF)) = some (0x00 ::
      [0xac, 0xe4, 0xcd, 0x09, 0xe2, 0x94, 0xd1, 0x91, 0x2d, 0x4a, 0xd2, 0x05, 0xd0, 0x6f, 0x95, 0xd9, 0xc2, 0xf2, 0xbf, 0xcf, 0x45, 0x3e, 0x87, 0x53, 0xf1, 0x28, 0x76, 0x5b, 0x62, 0x21, 0x5f, 0x4d, 0x92, 0xc7, 0x4f, 0x2f, 0x62, 0x6c, 0x6a, 0x64, 0x0c, 0x0b, 0x12, 0x84, 0xd8, 0x39, 0xec, 0x81, 0xf1, 0x69, 0x62, 0x81, 0xda, 0xfc, 0x3e, 0x68, 0x45, 0x93, 0x93, 0x70, 0x23, 0xb5, 0x8b, 0x1d, 0x76]) ∧
    counterAfter (execProcess (List.replicate 65 0) (zeroCipher 0xFFFFFFFF)) = some 1 := by decide +kernel
/-- V-BLK-2: one double round and the feed-forward. -/
theorem test_block_two_rounds :
    lastResponse (execBlock 2 (Vector.replicate 8 0) 0 (Vector.replicate 3 0) State.reset) = some (0x00 :: wordsToBytes
      (#v[0x45d04aae, 0x4ed88514, 0x5c7cb61c, 0x51880f72, 0x2a3bf673, 0x86bf4098, 0x460b500a, 0xfa169886, 0x538dca0e, 0x0c439641, 0x00fa16bc, 0x8a08812a, 0x6bbf8b09, 0xc33013d6, 0xbb9f9849, 0x87c62165] : Vector Word 16).toList) := by decide +kernel
/-- V-BLK-7: twenty rounds. -/
theorem test_block_twenty_rounds :
    block countingKey 1 #v[0x09000000, 0x4a000000, 0] 20 rfl =
      #v[0xe4e7f110, 0x15593bd1, 0x1fdd0f50, 0xc47120a3, 0xc7f4d1c7, 0x0368c033, 0x9aaa2204, 0x4e6cd4c3, 0x466482d2, 0x09aa9f07, 0x05d7c214, 0xa2028bd9, 0xd19c12b5, 0xb94e16de, 0xe883d0cb, 0x4e3c50a2] := by decide +kernel
/-- V-QR-9: a diagonal quadruple on a full state. -/
theorem test_qround_diagonal :
    lastResponse (execQround 2 7 8 13 #v[0x879531e0, 0xc5ecf37d, 0x516461b1, 0xc9a62f8a, 0x44c20ef3, 0x3390af7f, 0xd9fc690b, 0x2a5f714c, 0x53372767, 0xb00a5631, 0x974c541a, 0x359e9963, 0x5c971061, 0x3d631689, 0x2098d9d6, 0x91dbd320] State.reset) = some (0x00 :: wordsToBytes
      (#v[0x879531e0, 0xc5ecf37d, 0xbdb886dc, 0xc9a62f8a, 0x44c20ef3, 0x3390af7f, 0xd9fc690b, 0xcfacafd2, 0xe46bea80, 0xb00a5631, 0x974c541a, 0x359e9963, 0x5c971061, 0xccc07c79, 0x2098d9d6, 0x91dbd320] : Vector Word 16).toList) := by decide +kernel
/-- V-QR-11: a repeated index. -/
theorem test_qround_repeated : lastResponse (execQround 0 0 1 2 (Vector.replicate 16 0) State.reset) = some [0x05] := by decide
/-- V-SB-4: byte order at both ends of the state. -/
theorem test_build_byte_order :
    buildStateBytes #v[0x80, 0, 0, 0, 0, 0, 0, 0, 0, 0, 0, 0, 0, 0, 0, 0, 0, 0, 0, 0, 0, 0, 0, 0, 0, 0, 0, 0, 0, 0, 0, 0]
      #v[0, 0, 0, 0, 0, 0, 0, 0, 0, 0, 0, 0x80] 0x80000000 =
      #v[0x61707865, 0x3320646e, 0x79622d32, 0x6b206574, 0x00000080, 0x00000000, 0x00000000, 0x00000000, 0x00000000, 0x00000000, 0x00000000, 0x00000000, 0x80000000, 0x00000000, 0x00000000, 0x80000000] := by decide
/-- V-REG-2, V-REG-5, V-REG-9. -/
theorem test_rdreg_values :
    lastResponse (execRdreg 1 State.reset) = some [0x00, 0x6e, 0x64, 0x20, 0x33] ∧
    lastResponse (execRdreg 17 State.reset) = some [0x00, 0x14, 0x00, 0x00, 0x00] ∧
    lastResponse (execRdreg 12 (zeroCipher 7)) = some [0x00, 0x07, 0x00, 0x00, 0x00] := by decide
/-- V-REG-8, V-REG-10, V-REG-11, V-REG-12. -/
theorem test_rdreg_errors :
    lastResponse (execRdreg 12 State.reset) = some [0x04] ∧ lastResponse (execRdreg 4 (zeroCipher 0)) = some [0x06] ∧
    lastResponse (execRdreg 13 (zeroCipher 0)) = some [0x06] ∧ lastResponse (execRdreg 31 State.reset) = some [0x06] := by decide

/-! ### A step, and a row of the opcode table as the first command after reset -/

/-- V-REG-6 at the port. -/
theorem test_step_rdreg_status :
    lastResponse (step (withPackets State.reset [[0x10, 0x00, 0x00, 0x60]])) = some [0x00, 0x00, 0x00, 0x00, 0x00] := by decide
/-- R181: a CONSTRUCT that reset cuts off leaves the reset state and no response. -/
theorem test_step_cut_by_reset :
    (match step { zeroCipher 7 with inbox := [.commandCutByReset (encode (.construct (List.replicate 32 1) (List.replicate 12 1) 9))] } with
      | .next s => s == State.reset
      | _ => false) = true := by decide
/-- V-STR-6b, and the first command after reset. -/
theorem test_first_command_process : lastResponse (step (State.reset.withFetchWord 32 0x20000000)) = some [0x04] := by decide
theorem test_first_command_block_zero_rounds :
    (lastResponse (step (State.reset.withFetchWord 32 0x30000000))).map (·.take 5) = some [0x00, 0xca, 0xf0, 0xe0, 0xc2] := by
  decide +kernel

/-! ### The assembler -/

/-- P1 lines 1 and 2, P3 line 16, V-BLK-8's header, R65. -/
theorem test_assemble_construct :
    assemble ("CONSTRUCT key=h\"000102030405060708090a0b0c0d0e0f 101112131415161718191a1b1c1d1e1f\",\n" ++
      "          nonce=h\"00 00 00 00 00 00 00 4a 00 00 00 00\", counter=1") =
      some (encode (.construct [0, 1, 2, 3, 4, 5, 6, 7, 8, 9, 10, 11, 12, 13, 14, 15, 16, 17, 18, 19, 20, 21, 22, 23, 24, 25, 26, 27, 28, 29, 30, 31]
        [0, 0, 0, 0, 0, 0, 0, 0x4a, 0, 0, 0, 0] 1)) := by decide +kernel
theorem test_assemble_rdreg : assemble "RDREG CTR" = some [0x0c, 0x00, 0x00, 0x60] ∧ assemble "RDREG 4" = some [0x04, 0x00, 0x00, 0x60] := by
  decide +kernel
/-- R64: a word is a `0x` numeral or a decimal; `00x10` is neither (log entry 8). -/
theorem test_assemble_numerals :
    assemble "RDREG 0x10" = some [0x10, 0x00, 0x00, 0x60] ∧ assemble "RDREG 010" = some [0x0a, 0x00, 0x00, 0x60] ∧
    assemble "RDREG 0" = some [0x00, 0x00, 0x00, 0x60] ∧ assemble "RDREG 00x10" = none := by decide +kernel
theorem test_assemble_encrypt : assemble "ENCRYPT a\"La\"" = some [0x02, 0x00, 0x00, 0x20, 0x4c, 0x61] := by decide +kernel
theorem test_assemble_block :
    assemble "BLOCK key=[0,0,0,0,0,0,0,0], counter=0x1, nonce=[0,0,0]" =
      some ([0x14, 0x00, 0x00, 0x30] ++ List.replicate 32 0x00 ++ [0x01] ++ List.replicate 15 0x00) := by decide +kernel
theorem test_assemble_qround :
    assemble "QROUND (0,0,1,2), [0,0,0,0,0,0,0,0,0,0,0,0,0,0,0,0]" = some ([0x12, 0x00, 0x00, 0x40] ++ List.replicate 64 0x00) := by
  decide +kernel
theorem test_assemble_build_wants_its_sizes : assemble "BUILD key=h\"00\", nonce=h\"00\", counter=1" = none := by decide +kernel

/-! ### Witnesses: concrete states and operands that meet the hypotheses of each statement -/

/-- `DecodeOfEncodeIsTheCommand`, `PacketLengthBounds`: at the bounds of the three lengths, and two commands with one header. -/
theorem wit_wellFormed :
    (encode (.build (Vector.replicate 32 0) (Vector.replicate 12 0) 7)).take 4 =
      (encode (.build (Vector.replicate 32 1) (Vector.replicate 12 1) 0)).take 4 ∧
    (Instr.construct (List.replicate 255 0) (List.replicate 255 0) 0).wellFormed = true ∧
    (Instr.process (List.replicate (2 ^ 28 - 1) 0)).wellFormed = true ∧ (Instr.process []).wellFormed = true ∧
    (Instr.rdreg 31).wellFormed = true := ⟨by decide, test_wellFormed_accepts_lengths, test_wellFormed_accepts_buffer, by decide, by decide⟩

/-- `EncodeOfDecodeIsThePacket`, and a header for each command's clause of `DecoderFollowsItsRule`. -/
theorem wit_decodes :
    (∃ i, decodePacket ([0x01, 0x02, 0x00, 0x10] ++ List.replicate 7 0) = .ok i ∧ i.opcode = .construct) ∧
    (∃ i, decodePacket [0x01, 0x00, 0x00, 0x20, 0x4c] = .ok i ∧ i.opcode = .process) ∧
    (∃ i, decodePacket ([0xff, 0x00, 0x00, 0x30] ++ List.replicate 48 0) = .ok i ∧ i.opcode = .block) ∧
    (∃ i, decodePacket ([0xff, 0xff, 0x00, 0x40] ++ List.replicate 64 0) = .ok i ∧ i.opcode = .qround) ∧
    (∃ i, decodePacket ([0x00, 0x00, 0x00, 0x50] ++ List.replicate 48 0) = .ok i ∧ i.opcode = .build) ∧
    (∃ i, decodePacket [0x1f, 0x00, 0x00, 0x60] = .ok i ∧ i.opcode = .rdreg) :=
  ⟨⟨_, rfl, rfl⟩, ⟨_, rfl, rfl⟩, ⟨_, rfl, rfl⟩, ⟨_, rfl, rfl⟩, ⟨_, rfl, rfl⟩, ⟨_, rfl, rfl⟩⟩

/-- `DecoderFollowsItsRule`, the other clauses: three bytes; opcodes 0, 7 and 15; opcodes 1 and 6. -/
theorem wit_refusals :
    ([0x00, 0x00, 0x60] : Packet).length < 4 ∧ bits (le32 0x00 0x00 0x00 0x0f) 31 28 = 0 ∧ 7 ≤ bits (le32 0x00 0x00 0x00 0x70) 31 28 ∧
    7 ≤ bits (le32 0x00 0x00 0x00 0xf0) 31 28 ∧ bits (le32 0x00 0x00 0x00 0x10) 31 28 = 1 ∧ bits (le32 0x00 0x00 0x00 0x60) 31 28 = 6 := by
  decide

/-- `AssembledLinesDecode`, both clauses with hypotheses. -/
theorem wit_assembles :
    commandOf (.rdreg 12) = some (.rdreg 12) ∧ (Instr.rdreg 12).wellFormed = true ∧
    assembleLine (.rdreg 12) = some [0x0c, 0x00, 0x00, 0x60] := by decide

/-- `BlockPacketFromBytes`. -/
theorem wit_key_and_nonce : (List.replicate 32 (0xff : Byte)).length = 4 * 8 ∧ (List.replicate 12 (0x01 : Byte)).length = 4 * 3 := by decide

/-- `StepRunsTheDecodedCommand`, `OneLegalResponsePerPacket`, `ErrorsLeaveTheStateAlone`. -/
theorem wit_next_packet :
    (withPackets (zeroCipher 7) [[0x0c, 0x00, 0x00, 0x60], [0x00]]).inbox = .command [0x0c, 0x00, 0x00, 0x60] :: [.command [0x00]] ∧
    decodePacket [0x0c, 0x00, 0x00, 0x60] = .ok (.rdreg 12) := by decide

/-- `StepAnswersUndecodablePackets`, both clauses. -/
theorem wit_undecodable :
    (withPackets State.reset [[0x00, 0x00, 0x00, 0x00]]).inbox = .command [0x00, 0x00, 0x00, 0x00] :: [] ∧
    decodePacket [0x00, 0x00, 0x00, 0x00] = .error .opcode ∧
    (withPackets State.reset [[0x00, 0x01, 0x00, 0x60]]).inbox = .command [0x00, 0x01, 0x00, 0x60] :: [] ∧
    decodePacket [0x00, 0x01, 0x00, 0x60] = .error .format := by decide

/-- `StepWaitsForAnEvent`. -/
theorem wit_nothing_waiting : (zeroCipher 7).inbox = [] := rfl

/-- `ResetLeavesTheResetState`, both clauses, from a loaded cipher; also the second part of `CipherStateMachine`. -/
theorem wit_reset_waiting :
    (∃ t, ({ zeroCipher 7 with inbox := [.reset, .command []] } : State).inbox = .reset :: [.command []] ∧
      step { zeroCipher 7 with inbox := [.reset, .command []] } = .next t) ∧
    (∃ t p, ({ zeroCipher 7 with inbox := [.commandCutByReset [0x00]] } : State).inbox = .commandCutByReset p :: [] ∧
      step { zeroCipher 7 with inbox := [.commandCutByReset [0x00]] } = .next t) :=
  ⟨⟨_, rfl, rfl⟩, ⟨_, _, rfl, rfl⟩⟩

/-- `ResponsesStayLegal`: a state that has answered, and a step from it. -/
theorem wit_legal_step :
    ResponsesLegal { withPackets (zeroCipher 7) [[0x0c, 0x00, 0x00, 0x60]] with responses := [[0x00], [0x04]] } ∧
    ∃ t, step { withPackets (zeroCipher 7) [[0x0c, 0x00, 0x00, 0x60]] with responses := [[0x00], [0x04]] } = .next t := by
  refine ⟨?_, _, rfl⟩
  intro q hq
  rcases List.mem_cons.mp hq with rfl | hq
  · decide
  · rcases List.mem_cons.mp hq with rfl | hq
    · decide
    · cases hq

/-- `UnloadedRegistersNeverShow`: other registers, no cipher, and a run. -/
theorem wit_unloaded_pair :
    SameToHost (withPackets State.reset [[0x0c, 0x00, 0x00, 0x60]])
      { withPackets State.reset [[0x0c, 0x00, 0x00, 0x60]] with x := Vector.replicate 12 5 } ∧
    ∃ t, Host.Core.run Sys2Proof.core 1 (withPackets State.reset [[0x0c, 0x00, 0x00, 0x60]]) = .next t :=
  ⟨⟨rfl, rfl, rfl, fun h => by cases h⟩, _, rfl⟩

/-- `LoadedUntilReset`: a step that loses the cipher and one that loads it. -/
theorem wit_load_and_unload :
    (∃ t, step { zeroCipher 7 with inbox := [.reset] } = .next t ∧ (zeroCipher 7).loaded = true ∧ t.loaded = false) ∧
    ∃ t, step (withPackets State.reset [encode (.construct (List.replicate 32 0) (List.replicate 12 0) 7)]) = .next t ∧
      State.reset.loaded = false ∧ t.loaded = true :=
  ⟨⟨_, rfl, rfl, rfl⟩, ⟨_, rfl, rfl, rfl⟩⟩

/-- `OnlyConstructWritesKeyAndNonce`. -/
theorem wit_process_answers :
    (∃ t, exec (.process [0x01]) (zeroCipher 7) = .next t) ∧ (Instr.process [0x01]).opcode ≠ .construct ∧
    (∃ t, exec (.rdreg 12) (zeroCipher 7) = .next t) ∧ (Instr.rdreg 12).opcode ≠ .construct ∧ (Instr.rdreg 12).opcode ≠ .process :=
  ⟨⟨_, execProcess_loaded _ rfl⟩, by decide, ⟨_, rfl⟩, by decide, by decide⟩

/-- `SecretsShowInProcessOnly`: another key and another nonce. -/
theorem wit_other_secrets :
    SameButSecrets (zeroCipher 7) (loadedWith countingKey 7 #v[0, 0x4a000000, 0]) ∧ (Instr.rdreg 4).opcode ≠ .process :=
  ⟨⟨rfl, rfl, rfl, rfl⟩, by decide⟩

/-- `DiagnosticCommandsArePure`. -/
theorem wit_diagnostics :
    (Instr.block 255 (Vector.replicate 8 0) 0 (Vector.replicate 3 0)).opcode = .block ∧
    (Instr.qround 0 1 2 3 (Vector.replicate 16 0)).opcode = .qround ∧
    (Instr.build (Vector.replicate 32 0) (Vector.replicate 12 0) 0).opcode = .build ∧ (Instr.rdreg 12).opcode = .rdreg ∧
    (zeroCipher 7).loaded = true ∧ ctrWord (zeroCipher 7).x = 7 := by decide

/-- `ConstructFollowsItsRule`: each clause, on both sides of the right length. -/
theorem wit_construct_lengths :
    (List.replicate 31 (0 : Byte)).length ≠ 32 ∧ (List.replicate 33 (0 : Byte)).length ≠ 32 ∧ (List.replicate 32 (0 : Byte)).length = 32 ∧
    (List.replicate 11 (0 : Byte)).length ≠ 12 ∧ (List.replicate 13 (0 : Byte)).length ≠ 12 ∧ (List.replicate 12 (0 : Byte)).length = 12 := by
  decide

/-- `OneConstructHeaderSucceeds`: a CONSTRUCT at the port, one that succeeds and one that does not. -/
theorem wit_construct_packet :
    decodePacket (encode (.construct (List.replicate 32 0) (List.replicate 12 0) 7)) =
      .ok (.construct (List.replicate 32 0) (List.replicate 12 0) 7) ∧
    decodePacket (encode (.construct [0x00] [] 7)) = .ok (.construct [0x00] [] 7) ∧
    (withPackets State.reset [encode (.construct [0x00] [] 7)]).inbox = .command (encode (.construct [0x00] [] 7)) :: [] := by decide

/-- `ProcessFollowsItsRule`, `ProcessOfAnEmptyBuffer`, `ProcessWithoutCipher`, and, with two equal
ciphers, `ProcessIsAnInvolution`. -/
theorem wit_ciphers :
    (zeroCipher 7).loaded = true ∧ State.reset.loaded = false ∧
    ({ zeroCipher 7 with responses := [[0x00]] } : State).loaded = true ∧
    ({ zeroCipher 7 with responses := [[0x00]] } : State).x = (zeroCipher 7).x := by decide

/-- `MessageSplitAtBlocksIsWhole`: a block and a shorter last piece. -/
theorem wit_split_message :
    (zeroCipher 7).loaded = true ∧ (∀ b ∈ [List.replicate 64 (1 : Byte)], b.length % 64 = 0 ∧ b.length < 2 ^ 28) ∧
    ([0x02] : List Byte).length < 2 ^ 28 ∧
    (withPackets (zeroCipher 7) [encode (.process (List.replicate 64 1)), encode (.process [0x02])]).inbox =
      ([List.replicate 64 (1 : Byte)] ++ [[0x02]]).map (fun b => .command (encode (.process b))) := by decide

/-- `TwoCoresShareAMessage`: 64 bytes, then anything, the second core one block further. -/
theorem wit_two_cores :
    (zeroCipher 7).loaded = true ∧ (zeroCipher 8).loaded = true ∧ keyWords (zeroCipher 8).x = keyWords (zeroCipher 7).x ∧
    nonceWords (zeroCipher 8).x = nonceWords (zeroCipher 7).x ∧ (List.replicate 64 (1 : Byte)).length % 64 = 0 ∧
    ctrWord (zeroCipher 8).x = ctrWord (zeroCipher 7).x + BitVec.ofNat 32 ((List.replicate 64 (1 : Byte)).length / 64) := by decide

/-- `CounterWrapsSilently`, at both ends of its range of lengths. -/
theorem wit_last_counter :
    (zeroCipher 0xFFFFFFFF).loaded = true ∧ (zeroCipher 0xFFFFFFFF).x[8] = 0xFFFFFFFF ∧ 1 ≤ ([0x00] : List Byte).length ∧
    (List.replicate 64 (0 : Byte)).length ≤ 64 := by decide

/-- `CounterReadbackCountsChunks`: two PROCESS commands and the read. -/
theorem wit_readback :
    (zeroCipher 7).loaded = true ∧ (∀ b ∈ [List.replicate 65 (1 : Byte), []], b.length < 2 ^ 28) ∧
    (withPackets (zeroCipher 7) [encode (.process (List.replicate 65 1)), encode (.process []), encode (.rdreg 12)]).inbox =
      [List.replicate 65 (1 : Byte), []].map (fun b => .command (encode (.process b))) ++ [.command (encode (.rdreg 12))] := by decide

/-- `ProcessOfZerosIsBlocks`: the results of two BLOCK commands. -/
theorem wit_blocks :
    ∃ outs : Nat → List Byte, (zeroCipher 7).loaded = true ∧ ∀ j, j < 2 →
      exec (.block 20 (keyWords (zeroCipher 7).x) (ctrWord (zeroCipher 7).x + BitVec.ofNat 32 j) (nonceWords (zeroCipher 7).x)) (zeroCipher 7) =
        .next { zeroCipher 7 with responses := (zeroCipher 7).responses ++ [0x00 :: outs j] } :=
  ⟨_, rfl, fun j _ => execBlock_even (rounds := 20) rfl _ (ctrWord (zeroCipher 7).x + BitVec.ofNat 32 j) _ (zeroCipher 7)⟩

/-- `QroundFollowsItsRule`: both clauses (V-QR-11 and the nearest that is accepted). -/
theorem wit_indices : ¬ Distinct (0 : Fin 16) 0 1 2 ∧ Distinct (0 : Fin 16) 3 1 2 ∧ Distinct (15 : Fin 16) 14 13 0 := by decide

/-- `DisjointQuarterRoundsCommute`. -/
theorem wit_disjoint_quads :
    ∀ i ∈ [column0.a, column0.b, column0.c, column0.d], ∀ j ∈ [column3.a, column3.b, column3.c, column3.d], i ≠ j := by decide

/-- `RotationMovesEachBit`, at both ends of both ranges. -/
theorem wit_rotation : 1 ≤ 1 ∧ 1 ≤ 31 ∧ (31 : Nat) ≤ 31 ∧ 0 < 32 ∧ 31 < 32 := by decide

/-- `InitialStateLayout`: the list that its hypothesis names. -/
theorem wit_initial_state :
    buildState (keyWords (zeroCipher 7).x) (ctrWord (zeroCipher 7).x) (nonceWords (zeroCipher 7).x) =
      #v[0x61707865, 0x3320646e, 0x79622d32, 0x6b206574, 0, 0, 0, 0, 0, 0, 0, 0, 7, 0, 0, 0] := by decide

/-- `SerializeIsABijection`, and `WordsAndBytesAreInverse` at no byte and at the last word of several. -/
theorem wit_sixty_four_bytes :
    (List.replicate 64 (0xff : Byte)).length = 64 ∧ ([] : List Byte).length % 4 = 0 ∧ (List.replicate 64 (0xff : Byte)).length % 4 = 0 ∧
    15 < (List.replicate 64 (0xff : Byte)).length / 4 := by decide

/-- `DoubleRoundMixesColumnsThenDiagonals`: the wrapped diagonal of the last column. -/
theorem wit_last_diagonal : 3 < 4 ∧ (4 + (3 + 1) % 4, 8 + (3 + 2) % 4, 12 + (3 + 3) % 4) = (4, 9, 14) := by decide

/-- `BlockFollowsItsRule`: both clauses, at the bounds of the field. -/
theorem wit_round_counts : (255 : Fin 256).val % 2 = 1 ∧ (1 : Fin 256).val % 2 = 1 ∧ (0 : Fin 256).val % 2 = 0 ∧ (254 : Fin 256).val % 2 = 0 := by
  decide

/-- `RdregFollowsItsRule`: the numbers at the bounds of the last clause; the others name theirs. -/
theorem wit_register_numbers :
    (4 ≤ (4 : Fin 32).val ∧ (4 : Fin 32).val ≤ 11) ∧ (4 ≤ (11 : Fin 32).val ∧ (11 : Fin 32).val ≤ 11) ∧
    (13 ≤ (13 : Fin 32).val ∧ (13 : Fin 32).val ≤ 15) ∧ (13 ≤ (15 : Fin 32).val ∧ (15 : Fin 32).val ≤ 15) ∧
    18 ≤ (18 : Fin 32).val ∧ 18 ≤ (31 : Fin 32).val ∧ (zeroCipher 7).loaded = true ∧ State.reset.loaded = false := by decide

end Sys2Proof.Tests
end

section
/-!
The family `00_scope.md`: byte order (R6), and one step as one whole command (R7, R37).
-/

namespace Sys2Proof

/-- The bytes of a word are its digits in base 256, the least significant first (R6). -/
theorem toNat_eq_sum_bytesLe (w : Word) :
    w.toNat = ((bytesLe w).getD 0 0).toNat + 2 ^ 8 * ((bytesLe w).getD 1 0).toNat +
      2 ^ 16 * ((bytesLe w).getD 2 0).toNat + 2 ^ 24 * ((bytesLe w).getD 3 0).toNat :=
  calc w.toNat
    _ = (le32 _ _ _ _).toNat := congrArg BitVec.toNat (le32_bytesLe w).symm
    _ = _ := le32_toNat _ _ _ _

/-- Settles O43: the inverses are `bytesLe_le32` and `le32_bytesLe`, and `words_le` is read word by word. -/
theorem wordsAndBytesAreInverse : Obligations.WordsAndBytesAreInverse := by
  refine ⟨bytesLe_le32, fun w => ⟨_, _, _, _, rfl, le32_bytesLe w⟩, toNat_eq_sum_bytesLe, fun bs hbs => ?_⟩
  have hlen : bs.length = 4 * (bs.length / 4) := by omega
  refine ⟨Machine.wordsLe_length _ bs hlen, fun i hi => ?_⟩
  rw [List.getD_eq_getElem?_getD, wordsLe_getD i _ bs hlen hi, Option.getD_some]

end Sys2Proof

namespace Sys2Proof.Machine

/-- Settles O8: the step takes the packet from the port, and the packet runs as the command it decodes to. -/
theorem stepRunsTheDecodedCommand : Obligations.StepRunsTheDecodedCommand := fun _ _ _ _ hinbox hdecode =>
  (step_command hinbox).trans (runPacket_ok hdecode _)

end Sys2Proof.Machine
end

section
/-!
The family `10_state.md`: the cipher's state machine (R10 to R22). `Edge` is the one inversion of `exec`, `step_cases` the one inversion
of `step`; every statement of the family reads off them what may change.
-/

namespace Sys2Proof.Machine

/-! ### The edges of the state machine (R22) -/

/-- All that a command which neither loads nor processes can show of the state: `LOADED`, and `CTR` once a cipher is loaded (R140). -/
def visibleCounter (s : State) : Option Word := if s.loaded then some (ctrWord s.x) else none

theorem visibleCounter_loaded {s : State} (h : s.loaded = true) : visibleCounter s = some (ctrWord s.x) := by
  simp [visibleCounter, h]

theorem visibleCounter_isSome (s : State) : (visibleCounter s).isSome = s.loaded := by
  cases h : s.loaded <;> simp [visibleCounter, h]

theorem loaded_of_visibleCounter {s s' : State} (h : visibleCounter s' = visibleCounter s) : s'.loaded = s.loaded := by
  rw [← visibleCounter_isSome, h, visibleCounter_isSome]

theorem readRegister_visibleCounter (reg : Fin 32) {s s' : State} (h : visibleCounter s' = visibleCounter s) :
    readRegister reg s' = readRegister reg s := by
  have hloaded := loaded_of_visibleCounter h
  refine readRegister_congr reg hloaded fun hs => ?_
  rw [visibleCounter_loaded hs, visibleCounter_loaded (hloaded.trans hs)] at h
  exact Option.some.inj h

/-- What PROCESS leaves when a cipher is loaded: the output of the stream as its response, and the counter advanced (R122, R132). -/
def afterProcess (input : List Byte) (s : State) : State :=
  emit (okCode :: xorStream (keyWords s.x) (nonceWords s.x) (ctrWord s.x) input)
    (writeCtr (ctrWord s.x + BitVec.ofNat 32 (chunkCount input.length)) s)

section
variable (input : List Byte) (s : State)

@[simp] theorem afterProcess_loaded : (afterProcess input s).loaded = s.loaded := rfl
@[simp] theorem afterProcess_inbox : (afterProcess input s).inbox = s.inbox := rfl

@[simp] theorem keyWords_afterProcess : keyWords (afterProcess input s).x = keyWords s.x := keyWords_setCtr ..

@[simp] theorem nonceWords_afterProcess : nonceWords (afterProcess input s).x = nonceWords s.x := nonceWords_setCtr ..

@[simp] theorem ctrWord_afterProcess :
    ctrWord (afterProcess input s).x = ctrWord s.x + BitVec.ofNat 32 (chunkCount input.length) := ctrWord_setCtr ..

end

/-- The edges of R22, from the state before a command to the one after it. -/
inductive Edge : Instr → State → State → Prop where
  /-- A successful CONSTRUCT (R120). -/
  | load {key nonce : List Byte} {c : Word} {s : State} (hk : key.length = 4 * 8) (hn : nonce.length = 4 * 3) :
      Edge (.construct key nonce c) s (emit [okCode] (loadCipher (wordsOf 8 key hk) c (wordsOf 3 nonce hn) s))
  /-- PROCESS with a cipher loaded (R122). -/
  | advance {input : List Byte} {s : State} (loaded : s.loaded = true) : Edge (.process input) s (afterProcess input s)
  /-- Everything else: one response, which depends on nothing but the visible counter, and no other change (R121, R127, R167). -/
  | stay {i : Instr} {s : State} {q : Packet}
      (answers : ∀ s', visibleCounter s' = visibleCounter s → exec i s' = .next (emit q s'))
      (not_load : ∀ key nonce c, i = .construct key nonce c → key.length ≠ 32 ∨ nonce.length ≠ 12)
      (not_advance : ∀ input, i = .process input → s.loaded = false) : Edge i s (emit q s)

theorem execConstruct_ok {key nonce : List Byte} (hk : key.length = 4 * 8) (hn : nonce.length = 4 * 3) (c : Word) (s : State) :
    execConstruct key nonce c s = .next (emit [okCode] (loadCipher (wordsOf 8 key hk) c (wordsOf 3 nonce hn) s)) :=
  (dif_pos hk).trans (dif_pos hn)

theorem execConstruct_keyLen {key : List Byte} (hk : key.length ≠ 32) (nonce : List Byte) (c : Word) (s : State) :
    execConstruct key nonce c s = .next (emit [Cause.keyLen.code] s) :=
  dif_neg hk

theorem execConstruct_nonceLen {key nonce : List Byte} (hk : key.length = 32) (hn : nonce.length ≠ 12) (c : Word) (s : State) :
    execConstruct key nonce c s = .next (emit [Cause.nonceLen.code] s) :=
  (dif_pos hk).trans (dif_neg hn)

/-- A command with the same answer in all states alike in the visible counter takes the last edge. -/
theorem exec_stay {i : Instr} {s : State} {q : Packet}
    (answers : ∀ s', visibleCounter s' = visibleCounter s → exec i s' = .next (emit q s'))
    (not_load : ∀ key nonce c, i = .construct key nonce c → key.length ≠ 32 ∨ nonce.length ≠ 12)
    (not_advance : ∀ input, i = .process input → s.loaded = false) : ∃ t, exec i s = .next t ∧ Edge i s t :=
  ⟨_, answers s rfl, .stay answers not_load not_advance⟩

/-- Every command answers a next state by one of the edges (R22). -/
theorem exec_edge (i : Instr) (s : State) : ∃ t, exec i s = .next t ∧ Edge i s t := by
  cases i with
  | construct key nonce c =>
    by_cases hk : key.length = 32
    · by_cases hn : nonce.length = 12
      · exact ⟨_, execConstruct_ok hk hn c s, .load hk hn⟩
      · exact exec_stay (fun s' _ => execConstruct_nonceLen hk hn c s') (by rintro _ _ _ ⟨⟩; exact .inr hn) nofun
    · exact exec_stay (fun s' _ => execConstruct_keyLen hk nonce c s') (by rintro _ _ _ ⟨⟩; exact .inl hk) nofun
  | process input =>
    cases hs : s.loaded with
    | true => exact ⟨_, execProcess_loaded input hs, .advance hs⟩
    | false =>
      exact exec_stay (fun s' h => execProcess_unloaded input ((loaded_of_visibleCounter h).trans hs)) nofun fun _ _ => hs
  | block rounds k c n =>
    by_cases h : rounds.val % 2 = 0
    · exact exec_stay (fun s' _ => execBlock_even h k c n s') nofun nofun
    · exact exec_stay (fun s' _ => execBlock_odd h k c n s') nofun nofun
  | qround a b c d v =>
    by_cases h : Distinct a b c d
    · exact exec_stay (fun s' _ => execQround_distinct h v s') nofun nofun
    · exact exec_stay (fun s' _ => execQround_repeated h v s') nofun nofun
  | build key nonce c => exact exec_stay (fun s' _ => execBuild_eq key nonce c s') nofun nofun
  | rdreg reg =>
    cases hr : readRegister reg s with
    | ok w => exact exec_stay (fun s' h => execRdreg_value ((readRegister_visibleCounter reg h).trans hr)) nofun nofun
    | error e => exact exec_stay (fun s' h => execRdreg_error ((readRegister_visibleCounter reg h).trans hr)) nofun nofun

theorem edge_of_exec {i : Instr} {s t : State} (h : exec i s = .next t) : Edge i s t := by
  obtain ⟨u, hu, hedge⟩ := exec_edge i s
  cases hu.symm.trans h
  exact hedge

theorem Edge.inbox_eq {i : Instr} {s t : State} (h : Edge i s t) : t.inbox = s.inbox := by
  cases h <;> rfl

/-- A command never unloads the cipher (R14). -/
theorem Edge.loaded {i : Instr} {s t : State} (h : Edge i s t) (hs : s.loaded = true) : t.loaded = true := by
  cases h with
  | load => rfl
  | advance => exact hs
  | stay => exact hs

/-- Only a CONSTRUCT of the right lengths loads a cipher (R14). -/
theorem Edge.eq_construct {i : Instr} {s t : State} (h : Edge i s t) (hs : s.loaded = false) (ht : t.loaded = true) :
    ∃ key nonce c, i = .construct key nonce c ∧ key.length = 32 ∧ nonce.length = 12 := by
  cases h with
  | load hk hn => exact ⟨_, _, _, rfl, hk, hn⟩
  | advance loaded => cases hs.symm.trans loaded
  | stay => cases hs.symm.trans ht

/-! ### One step (R7) -/

/-- A reset is next at the port, between two commands or in the middle of one, and `rest` comes after it (R180, R181). -/
def ResetWaits (s : State) (rest : List PortEvent) : Prop :=
  s.inbox = .reset :: rest ∨ ∃ p, s.inbox = .commandCutByReset p :: rest

theorem step_resetWaits {s : State} {rest : List PortEvent} (h : ResetWaits s rest) :
    step s = .next (applyReset { s with inbox := rest }) := by
  obtain h | ⟨p, h⟩ := h
  · exact step_reset h
  · exact step_cut h

/-- All that a step can be: none, a packet that does not decode, a command, or a reset. -/
theorem step_cases (s : State) : ∃ t, step s = .next t ∧
    ((s.inbox = [] ∧ t = s) ∨
      (∃ p rest e, s.inbox = .command p :: rest ∧ decodePacket p = .error e ∧
        t = emit [(decodeCause e).code] { s with inbox := rest }) ∨
      (∃ p rest i, s.inbox = .command p :: rest ∧ decodePacket p = .ok i ∧ Edge i { s with inbox := rest } t) ∨
      ∃ rest, ResetWaits s rest ∧ t = applyReset { s with inbox := rest }) := by
  match h : s.inbox with
  | [] => exact ⟨s, step_empty h, .inl ⟨rfl, rfl⟩⟩
  | .command p :: rest =>
    rw [step_command h]
    cases hp : decodePacket p with
    | error e => exact ⟨_, runPacket_error hp _, .inr (.inl ⟨p, rest, e, rfl, hp, rfl⟩)⟩
    | ok i =>
      obtain ⟨t, ht, hedge⟩ := exec_edge i { s with inbox := rest }
      exact ⟨t, (runPacket_ok hp _).trans ht, .inr (.inr (.inl ⟨p, rest, i, rfl, hp, hedge⟩))⟩
  | .commandCutByReset p :: rest => exact ⟨_, step_cut h, .inr (.inr (.inr ⟨rest, .inr ⟨p, h⟩, rfl⟩))⟩
  | .reset :: rest => exact ⟨_, step_reset h, .inr (.inr (.inr ⟨rest, .inl h, rfl⟩))⟩

/-! ### Registers that hold no value -/

theorem SameToHost.refl (s : State) : SameToHost s s := ⟨rfl, rfl, rfl, fun _ => rfl⟩

section
variable {s s' : State} (h : SameToHost s s')
include h

theorem SameToHost.eq_of_loaded (hs : s.loaded = true) : s' = s := by
  obtain ⟨hloaded, hinbox, hresponses, hx⟩ := h
  cases s
  cases s'
  rw [State.mk.injEq]
  exact ⟨hx hs, hloaded, hinbox, hresponses⟩

theorem SameToHost.visibleCounter_eq : visibleCounter s' = visibleCounter s := by
  cases hs : s.loaded with
  | true => rw [h.eq_of_loaded hs]
  | false =>
    obtain ⟨hloaded, -⟩ := h
    simp [visibleCounter, hs, hloaded]

theorem SameToHost.emit_congr (q : Packet) : SameToHost (emit q s) (emit q s') := by
  obtain ⟨hloaded, hinbox, hresponses, hx⟩ := h
  exact ⟨hloaded, hinbox, congrArg (· ++ [q]) hresponses, hx⟩

theorem SameToHost.loadCipher_congr (k : Vector Word 8) (c : Word) (n : Vector Word 3) :
    SameToHost (loadCipher k c n s) (loadCipher k c n s') := by
  obtain ⟨-, hinbox, hresponses, -⟩ := h
  exact ⟨rfl, hinbox, hresponses, fun _ => rfl⟩

theorem SameToHost.inbox_congr (rest : List PortEvent) : SameToHost { s with inbox := rest } { s' with inbox := rest } := by
  obtain ⟨hloaded, -, hresponses, hx⟩ := h
  exact ⟨hloaded, rfl, hresponses, hx⟩

theorem SameToHost.resetWaits_congr {rest : List PortEvent} (hr : ResetWaits s rest) : ResetWaits s' rest := by
  obtain ⟨-, hinbox, -⟩ := h
  rwa [ResetWaits, hinbox]

/-- A command keeps two states alike to the host. -/
theorem SameToHost.exec_congr {i : Instr} {t : State} (hedge : Edge i s t) : ∃ t', exec i s' = .next t' ∧ SameToHost t t' := by
  cases hedge with
  | load hk hn => exact ⟨_, execConstruct_ok hk hn _ s', (h.loadCipher_congr _ _ _).emit_congr _⟩
  | advance loaded =>
    obtain rfl := h.eq_of_loaded loaded
    exact ⟨_, execProcess_loaded _ loaded, .refl _⟩
  | stay answers => exact ⟨_, answers s' h.visibleCounter_eq, h.emit_congr _⟩

/-- A step keeps two states alike to the host. -/
theorem SameToHost.step_congr : ∃ t t', step s = .next t ∧ step s' = .next t' ∧ SameToHost t t' := by
  have ⟨_, hinbox, _⟩ := h
  obtain ⟨t, ht, ⟨hin, rfl⟩ | ⟨p, rest, e, hin, hp, rfl⟩ | ⟨p, rest, i, hin, hp, hedge⟩ | ⟨rest, hr, rfl⟩⟩ := step_cases s
  · exact ⟨t, s', ht, step_empty (hinbox.trans hin), h⟩
  · exact ⟨_, _, ht, (step_command (hinbox.trans hin)).trans (runPacket_error hp _), (h.inbox_congr rest).emit_congr _⟩
  · obtain ⟨t', ht', hsame⟩ := (h.inbox_congr rest).exec_congr hedge
    exact ⟨t, t', ht, (step_command (hinbox.trans hin)).trans ((runPacket_ok hp _).trans ht'), hsame⟩
  · exact ⟨_, _, ht, step_resetWaits (h.resetWaits_congr hr), .refl _⟩

end

/-- Settles O17, by induction on the number of steps: each keeps the two states alike to the host. -/
theorem unloadedRegistersNeverShow : Obligations.UnloadedRegistersNeverShow := by
  intro k
  induction k with
  | zero =>
    intro s s' t h hrun
    cases hrun
    exact ⟨s', run_zero s', h⟩
  | succ k ih =>
    intro s s' t h hrun
    obtain ⟨u, u', hu, hu', hsame⟩ := h.step_congr
    rw [run_succ hu] at hrun
    rw [run_succ hu']
    exact ih u u' t hsame hrun

/-! ### What may change (R12 to R16, R22) -/

/-- Settles O18: no edge unloads, so what unloads is a reset; and the only edge that loads is CONSTRUCT's. -/
theorem loadedUntilReset : Obligations.LoadedUntilReset := by
  intro s t hst
  obtain ⟨u, hu, hcases⟩ := step_cases s
  cases hu.symm.trans hst
  obtain ⟨-, rfl⟩ | ⟨p, rest, e, -, -, rfl⟩ | ⟨p, rest, i, hin, hp, hedge⟩ | ⟨rest, hr, rfl⟩ := hcases
  · simp +contextual
  · simp +contextual
  · constructor
    · intro hs ht
      cases (hedge.loaded hs).symm.trans ht
    · intro hs ht
      obtain ⟨key, nonce, c, rfl, hk, hn⟩ := hedge.eq_construct hs ht
      exact ⟨p, rest, key, nonce, c, hin, hp, hk, hn⟩
  · exact ⟨fun _ _ => hr.imp (⟨rest, ·⟩) fun ⟨p, h⟩ => ⟨p, rest, h⟩, nofun⟩

/-- Settles O19: the three edges of a command are those of `Edge`, and a reset leaves `LOADED = 0`. -/
theorem cipherStateMachine : Obligations.CipherStateMachine := by
  refine ⟨fun i s => ?_, fun s t rest hr hst => ?_⟩
  · obtain ⟨t, ht, hedge⟩ := exec_edge i s
    refine ⟨t, ht, hedge.inbox_eq, ?_⟩
    cases hedge with
    | @load key nonce c _ hk hn =>
      refine .inl ⟨key, nonce, c, rfl, hk, hn, rfl, ?_, by simp, ?_⟩
      · simpa using wordsToBytes_wordsLe 8 key hk
      · simpa using wordsToBytes_wordsLe 3 nonce hn
    | @advance input _ loaded =>
      exact .inr (.inl ⟨input, rfl, loaded, loaded, keyWords_afterProcess .., nonceWords_afterProcess .., ctrWord_afterProcess ..⟩)
    | stay answers not_load not_advance => exact .inr (.inr ⟨⟨rfl, rfl⟩, not_load, not_advance⟩)
  · cases (step_resetWaits hr).symm.trans hst
    rfl

/-- Settles O20: without CONSTRUCT, an edge writes `CTR` or no register. -/
theorem onlyConstructWritesKeyAndNonce : Obligations.OnlyConstructWritesKeyAndNonce := by
  intro i s t hexec hi
  cases edge_of_exec hexec with
  | load => exact absurd rfl hi
  | advance => exact ⟨keyWords_afterProcess .., nonceWords_afterProcess .., rfl, fun hp => absurd rfl hp⟩
  | stay => exact ⟨rfl, rfl, rfl, fun _ => rfl⟩

/-! ### Reading the counter (R16, R142) -/

/-- A command decodes from its packet when its operands are read from its own header and payload. -/
theorem decodePacket_encode {i : Instr} (hheader : Laws.HeaderLength.Statement i) (hwf : i.wellFormed = true)
    (hoperands : operands i.opcode (headerWord i) (payloadOf i) = some i) : decodePacket (encode i) = .ok i := by
  obtain ⟨hnumber, hreserved, hlength⟩ := hheader hwf
  rw [encode, List.length_append, bytesLe_length] at hlength
  rw [encode, decodePacket_bytesLe]
  exact decodeHeader_ok i.opcode hnumber hreserved (Nat.add_left_cancel hlength) hoperands

theorem decodePacket_encode_process {input : List Byte} (h : input.length < 2 ^ 28) :
    decodePacket (encode (.process input)) = .ok (.process input) :=
  decodePacket_encode (Laws.HeaderLength.process input) (decide_eq_true h) rfl

/-- A PROCESS packet at the port, a cipher loaded (R122). -/
theorem step_process {s : State} {b : List Byte} {rest : List PortEvent} (hlen : b.length < 2 ^ 28)
    (hin : s.inbox = .command (encode (.process b)) :: rest) (hs : s.loaded = true) :
    step s = .next (afterProcess b { s with inbox := rest }) :=
  (step_command hin).trans ((runPacket_ok (decodePacket_encode_process hlen) _).trans (execProcess_loaded b hs))

/-- RDREG of `CTR` at the port, a cipher loaded (R142). -/
theorem step_readCtr {s : State} {rest : List PortEvent} (hin : s.inbox = .command (encode (.rdreg 12)) :: rest)
    (hs : s.loaded = true) : step s = .next (emit (okCode :: bytesLe (ctrWord s.x)) { s with inbox := rest }) := by
  have hread : readRegister 12 { s with inbox := rest } = .ok (ctrWord s.x) := by simp [readRegister, hs]
  have hdecode : decodePacket (encode (.rdreg 12)) = .ok (.rdreg 12) :=
    decodePacket_encode (Laws.HeaderLength.rdreg 12) rfl rfl
  exact (step_command hin).trans ((runPacket_ok hdecode _).trans (execRdreg_value hread))

/-- The PROCESS packets of some buffers, as they wait at the port. -/
def processEvents (inputs : List (List Byte)) : List PortEvent := inputs.map fun b => .command (encode (.process b))

/-- The chunks of some buffers, each counted by itself (R123). -/
def chunkSum (inputs : List (List Byte)) : Nat := (inputs.map fun b => chunkCount b.length).sum

/-- PROCESS packets at the port, a cipher loaded: each advances `CTR` by its chunks and gives one response. -/
theorem run_process (m : Nat) (rest : List PortEvent) : ∀ (inputs : List (List Byte)) (s : State), s.loaded = true →
    (∀ b ∈ inputs, b.length < 2 ^ 28) → s.inbox = processEvents inputs ++ rest →
    ∃ (t : State) (outs : List Packet),
      Host.Core.run Sys2Proof.core (inputs.length + m) s = Host.Core.run Sys2Proof.core m t ∧ outs.length = inputs.length ∧
      t.loaded = true ∧ t.inbox = rest ∧ t.responses = s.responses ++ outs ∧
      ctrWord t.x = ctrWord s.x + BitVec.ofNat 32 (chunkSum inputs) := by
  intro inputs
  induction inputs with
  | nil => exact fun s hs _ hin => ⟨s, [], by simp, rfl, hs, hin, by simp, by simp [chunkSum]⟩
  | cons b bs ih =>
    intro s hs hlen hin
    obtain ⟨hb, hbs⟩ := List.forall_mem_cons.mp hlen
    obtain ⟨t, outs, hrun, houts, ht, hinbox, hresponses, hctr⟩ :=
      ih (afterProcess b { s with inbox := processEvents bs ++ rest }) hs hbs rfl
    refine ⟨t, _ :: outs, ?_, congrArg (· + 1) houts, ht, hinbox, hresponses.trans (List.append_assoc ..), ?_⟩
    · rw [List.length_cons, Nat.add_right_comm, run_succ (step_process hb hin hs)]
      exact hrun
    · rw [hctr]
      simp [chunkSum, BitVec.ofNat_add, BitVec.add_assoc]

/-- Settles O33: the run of the PROCESS packets, then the step of the RDREG. -/
theorem counterReadbackCountsChunks : Obligations.CounterReadbackCountsChunks := by
  intro inputs s hs hlen hin
  obtain ⟨t, outs, hrun, houts, ht, hinbox, hresponses, hctr⟩ := run_process 1 [.command (encode (.rdreg 12))] inputs s hs hlen hin
  refine ⟨_, outs, hrun.trans (run_succ (step_readCtr hinbox ht) 0), houts, rfl, ?_⟩
  rw [emit_responses, hctr]
  exact congrArg (· ++ _) hresponses

/-! ### Reset (R21, R180 to R182) -/

/-- Settles O11: what a reset leaves is the reset state with the later events still to come. -/
theorem resetLeavesTheResetState : Obligations.ResetLeavesTheResetState := fun _ _ hr =>
  ⟨_, step_resetWaits hr, .refl _⟩

/-- Settles O12: `LOADED` is 0 at reset, so STATUS reads 0 and what needs a cipher answers `E_NOTLOADED`. -/
theorem resetStateIsUnloaded : Obligations.ResetStateIsUnloaded :=
  ⟨reset_loaded, reset_inbox, reset_responses, execRdreg_value (reg := 16) (s := State.reset) (w := statusWord false) rfl,
    execRdreg_error (reg := 12) (s := State.reset) (c := .notLoaded) rfl, fun input => execProcess_unloaded input reset_loaded⟩

/-- Settles O16: at reset there is no response. -/
theorem responsesLegalAtReset : Obligations.ResponsesLegalAtReset := by
  intro q hq
  rw [reset_responses] at hq
  exact absurd hq List.not_mem_nil

end Sys2Proof.Machine
end

section
/-!
The family `30_encoding.md`: packets and responses (R50 to R66). The encoder and the decoder are each other's inverse: `operands_own`
reads a command's operands back from its own packet, and `exists_instr` finds a command for every header and payload that pass the tests
of R61. `AnswersLegally` is what each command's response keeps.
-/

namespace Sys2Proof

/-- The family `HeaderLength` as one lemma (R52, R62). -/
theorem headerLength (i : Instr) : Laws.HeaderLength.Statement i :=
  match i with
  | .construct key nonce c => Laws.HeaderLength.construct key nonce c
  | .process input => Laws.HeaderLength.process input
  | .block rounds k c n => Laws.HeaderLength.block rounds k c n
  | .qround a b c d v => Laws.HeaderLength.qround a b c d v
  | .build key nonce c => Laws.HeaderLength.build key nonce c
  | .rdreg reg => Laws.HeaderLength.rdreg reg

/-! ### The operands of a command's own packet -/

/-- A field of a header that is written as a number. -/
theorem bits_ofNat (m hi lo : Nat) : bits (BitVec.ofNat 32 m) hi lo = m % 2 ^ 32 / 2 ^ lo % 2 ^ (hi - lo + 1) := by
  rw [bits, BitVec.toNat_ofNat]

theorem bitField_ofNat {m hi lo : Nat} {f : Fin (2 ^ (hi - lo + 1))} (hm : m % 2 ^ 32 / 2 ^ lo % 2 ^ (hi - lo + 1) = f.val) :
    bitField (BitVec.ofNat 32 m) hi lo = f :=
  Fin.ext ((bits_ofNat m hi lo).trans hm)

theorem operands_construct {h : Word} {key nonce : List Byte} (c : Word) (hk : bits h 15 8 = key.length)
    (hn : bits h 7 0 = nonce.length) : operands .construct h (key ++ nonce ++ bytesLe c) = some (.construct key nonce c) := by
  simp [operands, hk, hn, -List.length_append]

theorem operands_block (h : Word) (k : Vector Word 8) (c : Word) (n : Vector Word 3) :
    operands .block h (wordsToBytes k.toList ++ bytesLe c ++ wordsToBytes n.toList) = some (.block (bitField h 7 0) k c n) := by
  have htake : (bytesLe c).take 4 = bytesLe c := rfl
  have hdrop : (bytesLe c).drop 4 = [] := rfl
  simp [operands, List.take_append, List.drop_append, List.drop_of_length_le, htake, hdrop]

theorem operands_build (h : Word) (key : Vector Byte 32) (nonce : Vector Byte 12) (c : Word) :
    operands .build h (key.toList ++ nonce.toList ++ bytesLe c) = some (.build key nonce c) := by
  simp [operands, List.drop_append, List.drop_of_length_le]

theorem operands_qround (h : Word) (v : Vector Word 16) :
    operands .qround h (wordsToBytes v.toList) =
      some (.qround (bitField h 15 12) (bitField h 11 8) (bitField h 7 4) (bitField h 3 0) v) := by
  simp [operands]

/-- The decoder's operands of a command's own header and payload are the command's (R53 to R59). -/
theorem operands_own (i : Instr) (hwf : i.wellFormed = true) : operands i.opcode (headerWord i) (payloadOf i) = some i := by
  cases i with
  | construct key nonce c =>
    simp only [Instr.wellFormed, Bool.and_eq_true, decide_eq_true_eq] at hwf
    refine operands_construct c ?_ ?_ <;> rw [headerWord, bits_ofNat] <;> omega
  | process input => rfl
  | block rounds k c n =>
    have hr : bitField (headerWord (.block rounds k c n)) 7 0 = rounds := bitField_ofNat (by omega)
    exact (operands_block ..).trans (by rw [hr])
  | qround a b c d v =>
    have ha : bitField (headerWord (.qround a b c d v)) 15 12 = a := bitField_ofNat (by omega)
    have hb : bitField (headerWord (.qround a b c d v)) 11 8 = b := bitField_ofNat (by omega)
    have hc : bitField (headerWord (.qround a b c d v)) 7 4 = c := bitField_ofNat (by omega)
    have hd : bitField (headerWord (.qround a b c d v)) 3 0 = d := bitField_ofNat (by omega)
    exact (operands_qround ..).trans (by rw [ha, hb, hc, hd])
  | build key nonce c => exact operands_build ..
  | rdreg reg =>
    have hr : bitField (headerWord (.rdreg reg)) 4 0 = reg := bitField_ofNat (by omega)
    exact congrArg (some <| Instr.rdreg ·) hr

/-- Settles O1: the checks pass on the command's own header, and the operands read are the command's. -/
theorem decodeOfEncodeIsTheCommand : Obligations.DecodeOfEncodeIsTheCommand := fun i hwf =>
  Machine.decodePacket_encode (headerLength i) hwf (operands_own i hwf)

/-! ### Every packet that passes the checks is a command's -/

/-- A list of the length of three parts is three parts. -/
theorem exists_three_parts {l : List Byte} {a b c : Nat} (h : l.length = a + b + c) :
    ∃ l₁ l₂ l₃, l = l₁ ++ l₂ ++ l₃ ∧ l₁.length = a ∧ l₂.length = b ∧ l₃.length = c := by
  refine ⟨l.take a, (l.drop a).take b, l.drop (a + b), ?_, ?_, ?_, ?_⟩
  · rw [List.append_assoc, ← List.drop_drop, List.take_append_drop, List.take_append_drop]
  all_goals simp; omega

theorem exists_bytesLe {l : List Byte} (h : l.length = 4) : ∃ w, bytesLe w = l :=
  (wordFrom_some h).imp fun _ hw => (wordFrom_eq_some hw).symm

theorem exists_wordsToBytes {n : Nat} {l : List Byte} (h : l.length = 4 * n) : ∃ v : Vector Word n, wordsToBytes v.toList = l :=
  ⟨Machine.wordsOf n l h, wordsToBytes_wordsLe n l h⟩

theorem exists_toList {n : Nat} {l : List Byte} (h : l.length = n) : ∃ v : Vector Byte n, v.toList = l :=
  ⟨⟨l.toArray, h⟩, rfl⟩

/-- A header word that its fields, as numbers, add up to. -/
theorem ofNat_eq_of_toNat_eq {h : Word} {m : Nat} (hm : h.toNat = m) : BitVec.ofNat 32 m = h := by
  rw [← hm, BitVec.ofNat_toNat, BitVec.setWidth_eq]

/-- Every header and payload that pass the tests of R61 are those of a well-formed command of the header's opcode. -/
theorem exists_instr (op : Opcode) (h : Word) (payload : List Byte) (hnumber : bits h 31 28 = op.number)
    (hreserved : reservedBits op h = 0) (hlength : payload.length = payloadBytes op h) :
    ∃ i : Instr, i.opcode = op ∧ i.wellFormed = true ∧ headerWord i = h ∧ payloadOf i = payload := by
  have hlt := h.isLt
  cases op with
  | construct =>
    obtain ⟨key, nonce, cs, rfl, hk, hn, hc⟩ := exists_three_parts hlength
    obtain ⟨c, rfl⟩ := exists_bytesLe hc
    have hwf : key.length < 256 ∧ nonce.length < 256 := ⟨hk ▸ bits_lt h 15 8, hn ▸ bits_lt h 7 0⟩
    refine ⟨.construct key nonce c, rfl, by simpa [Instr.wellFormed] using hwf, ofNat_eq_of_toNat_eq ?_, rfl⟩
    simp only [bits, Opcode.number, reservedBits] at hnumber hreserved hk hn
    omega
  | process =>
    have hwf : payload.length < 2 ^ 28 := hlength ▸ bits_lt h 27 0
    refine ⟨.process payload, rfl, decide_eq_true hwf, ofNat_eq_of_toNat_eq ?_, rfl⟩
    simp only [bits, Opcode.number, payloadBytes] at hnumber hlength
    omega
  | block =>
    obtain ⟨ks, cs, ns, rfl, hk, hc, hn⟩ := exists_three_parts (a := 4 * 8) (b := 4) (c := 4 * 3) hlength
    obtain ⟨k, rfl⟩ := exists_wordsToBytes hk
    obtain ⟨c, rfl⟩ := exists_bytesLe hc
    obtain ⟨n, rfl⟩ := exists_wordsToBytes hn
    refine ⟨.block (bitField h 7 0) k c n, rfl, rfl, ofNat_eq_of_toNat_eq ?_, rfl⟩
    simp only [bitField, bits, Opcode.number, reservedBits] at hnumber hreserved ⊢
    omega
  | qround =>
    obtain ⟨v, rfl⟩ := exists_wordsToBytes (n := 16) hlength
    refine ⟨.qround (bitField h 15 12) (bitField h 11 8) (bitField h 7 4) (bitField h 3 0) v, rfl, rfl, ofNat_eq_of_toNat_eq ?_, rfl⟩
    simp only [bitField, bits, Opcode.number, reservedBits] at hnumber hreserved ⊢
    omega
  | build =>
    obtain ⟨ks, ns, cs, rfl, hk, hn, hc⟩ := exists_three_parts (a := 32) (b := 12) (c := 4) hlength
    obtain ⟨key, rfl⟩ := exists_toList hk
    obtain ⟨nonce, rfl⟩ := exists_toList hn
    obtain ⟨c, rfl⟩ := exists_bytesLe hc
    refine ⟨.build key nonce c, rfl, rfl, ofNat_eq_of_toNat_eq (m := 0x50000000) ?_, rfl⟩
    simp only [bits, Opcode.number, reservedBits] at hnumber hreserved
    omega
  | rdreg =>
    obtain rfl := List.eq_nil_of_length_eq_zero hlength
    refine ⟨.rdreg (bitField h 4 0), rfl, rfl, ofNat_eq_of_toNat_eq ?_, rfl⟩
    simp only [bitField, bits, Opcode.number, reservedBits] at hnumber hreserved ⊢
    omega

/-- So they decode to a command of that opcode, of which they are the packet. -/
theorem exists_decodeHeader (op : Opcode) {h : Word} {payload : List Byte} (hnumber : bits h 31 28 = op.number)
    (hreserved : reservedBits op h = 0) (hlength : payload.length = payloadBytes op h) :
    ∃ i : Instr, decodeHeader h payload = .ok i ∧ i.opcode = op ∧ i.wellFormed = true ∧ encode i = bytesLe h ++ payload := by
  obtain ⟨i, hop, hwf, rfl, rfl⟩ := exists_instr op h payload hnumber hreserved hlength
  refine ⟨i, ?_, hop, hwf, rfl⟩
  rw [← decodePacket_bytesLe]
  exact decodeOfEncodeIsTheCommand i hwf

/-- What a decoded packet must have been: it passed the tests, and it is the packet of the command read. -/
theorem of_decodeHeader {h : Word} {payload : List Byte} {i : Instr} (hd : decodeHeader h payload = .ok i) :
    bits h 31 28 = i.opcode.number ∧ reservedBits i.opcode h = 0 ∧ payload.length = payloadBytes i.opcode h ∧
      i.wellFormed = true ∧ encode i = bytesLe h ++ payload := by
  obtain ⟨op, hop, hreserved, hlength, -⟩ := decodeHeader_eq_ok hd
  have hnumber := opcodeOf_eq_some hop
  obtain ⟨j, hj, rfl, hwf, henc⟩ := exists_decodeHeader op hnumber hreserved hlength
  cases hj.symm.trans hd
  exact ⟨hnumber, hreserved, hlength, hwf, henc⟩

/-- Settles O2: what decodes is a header and a payload that pass the tests, so they are the packet of the command read. -/
theorem encodeOfDecodeIsThePacket : Obligations.EncodeOfDecodeIsThePacket := by
  intro p i hp
  obtain hshort | ⟨h, payload, rfl⟩ := packet_cases p
  · cases (decodePacket_short p hshort).symm.trans hp
  · rw [decodePacket_bytesLe] at hp
    obtain ⟨-, -, -, hwf, henc⟩ := of_decodeHeader hp
    exact ⟨hwf, henc⟩

/-! ### The tests in their order (R61) -/

theorem opcodeOf_eq_none {h : Word} (hn : bits h 31 28 = 0 ∨ 7 ≤ bits h 31 28) : opcodeOf h = none := by
  cases ho : opcodeOf h with
  | none => rfl
  | some op =>
    have hnumber := opcodeOf_eq_some ho
    cases op <;> simp only [Opcode.number] at hnumber <;> omega

theorem exists_opcodeOf {h : Word} (h1 : 1 ≤ bits h 31 28) (h6 : bits h 31 28 ≤ 6) : ∃ op : Opcode, bits h 31 28 = op.number := by
  generalize bits h 31 28 = m at h1 h6
  interval_cases m
  exacts [⟨.construct, rfl⟩, ⟨.process, rfl⟩, ⟨.block, rfl⟩, ⟨.qround, rfl⟩, ⟨.build, rfl⟩, ⟨.rdreg, rfl⟩]

theorem decodeHeader_opcode {h : Word} (hn : bits h 31 28 = 0 ∨ 7 ≤ bits h 31 28) (payload : List Byte) :
    decodeHeader h payload = .error .opcode := by
  simp only [decodeHeader, opcodeOf_eq_none hn]

/-- Of an opcode that names a command, a packet is refused for its format alone. -/
theorem decodeHeader_format_or_ok {h : Word} (op : Opcode) (hn : bits h 31 28 = op.number) (payload : List Byte) :
    decodeHeader h payload = .error .format ∨ ∃ i, decodeHeader h payload = .ok i := by
  by_cases hreserved : reservedBits op h = 0
  · by_cases hlength : payload.length = payloadBytes op h
    · obtain ⟨i, hi, -⟩ := exists_decodeHeader op hn hreserved hlength
      exact .inr ⟨i, hi⟩
    · exact .inl (by simp [decodeHeader, opcodeOf_number op hn, hlength])
  · exact .inl (by simp [decodeHeader, opcodeOf_number op hn, hreserved])

/-- A packet is a command's exactly when mask and match select the command and the payload has the length the header implies (R61,
R66). -/
theorem decodeHeader_ok_iff (op : Opcode) (h : Word) (payload : List Byte) :
    (∃ i, decodeHeader h payload = .ok i ∧ i.opcode = op) ↔
      h &&& op.maskWord = op.matchWord ∧ payload.length = payloadBytes op h := by
  have hselects := op.selects_iff h
  rw [Opcode.selects, beq_iff_eq] at hselects
  rw [hselects]
  constructor
  · rintro ⟨i, hi, rfl⟩
    obtain ⟨hnumber, hreserved, hlength, -⟩ := of_decodeHeader hi
    exact ⟨⟨hnumber, hreserved⟩, hlength⟩
  · rintro ⟨⟨hnumber, hreserved⟩, hlength⟩
    obtain ⟨i, hi, hop, -⟩ := exists_decodeHeader op hnumber hreserved hlength
    exact ⟨i, hi, hop⟩

/-- Settles O3: the opcode is tested first, and each command's clause is `decodeHeader_ok_iff` at its row of the table. -/
theorem decoderFollowsItsRule : Obligations.DecoderFollowsItsRule := by
  refine ⟨decodePacket_short, ?_⟩
  rintro b0 b1 b2 b3 payload h d rfl rfl
  refine ⟨fun hn => decodeHeader_opcode hn payload, fun h1 h6 => ?_, decodeHeader_ok_iff .construct _ payload,
    decodeHeader_ok_iff .process _ payload, decodeHeader_ok_iff .block _ payload, decodeHeader_ok_iff .qround _ payload,
    decodeHeader_ok_iff .build _ payload, decodeHeader_ok_iff .rdreg _ payload⟩
  obtain ⟨op, hop⟩ := exists_opcodeOf h1 h6
  exact decodeHeader_format_or_ok op hop payload

/-! ### Packet lengths (R62) -/

theorem take_four_encode (i : Instr) : (encode i).take 4 = bytesLe (headerWord i) := List.take_left' rfl

theorem encode_length {i : Instr} (hwf : i.wellFormed = true) : (encode i).length = 4 + payloadBytes i.opcode (headerWord i) := by
  obtain ⟨-, -, hlength⟩ := headerLength i hwf
  exact hlength

theorem encode_process_length (input : List Byte) : (encode (.process input)).length = 4 + input.length :=
  List.length_append

theorem opcodeOf_headerWord {i : Instr} (hwf : i.wellFormed = true) : opcodeOf (headerWord i) = some i.opcode := by
  obtain ⟨hnumber, -⟩ := headerLength i hwf
  exact opcodeOf_number i.opcode hnumber

/-- The header alone tells which command a packet holds. -/
theorem opcode_eq_of_headerWord_eq {i j : Instr} (hi : i.wellFormed = true) (hj : j.wellFormed = true)
    (h : headerWord j = headerWord i) : j.opcode = i.opcode :=
  Option.some.inj (by rw [← opcodeOf_headerWord hj, h, opcodeOf_headerWord hi])

theorem payloadBytes_process_lt (h : Word) : payloadBytes .process h < 2 ^ 28 := bits_lt h 27 0

/-- No payload but a PROCESS buffer is longer than the two byte strings and the counter of a CONSTRUCT. -/
theorem payloadBytes_le_of_ne_process {op : Opcode} (hop : op ≠ .process) (h : Word) : payloadBytes op h ≤ 255 + 255 + 4 := by
  cases op with
  | construct =>
    have hk : bits h 15 8 < 256 := bits_lt h 15 8
    have hn : bits h 7 0 < 256 := bits_lt h 7 0
    simp only [payloadBytes]
    omega
  | process => exact absurd rfl hop
  | block | qround | build | rdreg => simp [payloadBytes]

theorem exists_eq_process {i : Instr} (h : i.opcode = .process) : ∃ input, i = .process input := by
  cases i with
  | process input => exact ⟨input, rfl⟩
  | construct | block | qround | build | rdreg => cases h

/-- Settles O4: the lengths are `4 +` what the header implies, and that is near `2^28` for PROCESS only. -/
theorem packetLengthBounds : Obligations.PacketLengthBounds := by
  intro i hwf
  have hlength := encode_length hwf
  have hbound : payloadBytes i.opcode (headerWord i) ≤ 255 + 255 + 4 ∨
      i.opcode = .process ∧ payloadBytes i.opcode (headerWord i) < 2 ^ 28 := by
    by_cases hop : i.opcode = .process
    · exact .inr ⟨hop, hop ▸ payloadBytes_process_lt _⟩
    · exact .inl (payloadBytes_le_of_ne_process hop _)
  refine ⟨by omega, by omega, ?_, ⟨fun hmax => ?_, ?_⟩, fun j hj htake => ?_⟩
  · rintro ⟨reg, rfl⟩
    rfl
  · have hop : i.opcode = .process := hbound.elim (by omega) And.left
    obtain ⟨input, rfl⟩ := exists_eq_process hop
    rw [encode_process_length] at hmax
    exact ⟨input, rfl, by omega⟩
  · rintro ⟨input, rfl, hinput⟩
    rw [encode_process_length]
    omega
  · rw [take_four_encode, take_four_encode] at htake
    have hheader := bytesLe_injective htake
    rw [hlength, encode_length hj, hheader, opcode_eq_of_headerWord_eq hwf hj hheader]

/-- Settles O5: the decoder evaluated on each packet. -/
theorem specPacketsDecode : Obligations.SpecPacketsDecode := by
  refine ⟨?_, ?_, ?_, ?_, ?_, ?_⟩ <;> decide

namespace Machine

/-! ### The assembler (R64, R65) -/

@[simp] theorem asFin_val {n : Nat} (f : Fin n) : asFin n f.val = some f := dif_pos f.isLt

@[simp] theorem asWord_toNat (w : Word) : asWord w.toNat = some w := by
  rw [asWord, if_pos w.isLt, BitVec.ofNat_toNat, BitVec.setWidth_eq]

theorem mapM_asWord_toNat (ws : List Word) : (ws.map BitVec.toNat).mapM asWord = some ws := by
  induction ws with
  | nil => rfl
  | cons w ws ih => simp [ih]

@[simp] theorem asWords_toNat {n : Nat} (v : Vector Word n) : asWords n (v.toList.map BitVec.toNat) = some v := by
  rw [asWords, mapM_asWord_toNat, Option.bind_some, toVec_toList]

/-- A line assembles to the packet of its command, where that command has one. -/
theorem assembleLine_eq_some_iff {l : AsmLine} {p : Packet} :
    assembleLine l = some p ↔ ∃ i, commandOf l = some i ∧ i.wellFormed = true ∧ encode i = p := by
  simp [assembleLine, Option.bind_eq_some_iff]

/-- A BLOCK line, its round count given or left out. -/
theorem commandOf_block (k : Vector Word 8) (c : Word) (n : Vector Word 3) (r : Option Nat) (rounds : Fin 256)
    (hr : r.getD Config.defaultRounds = rounds.val) :
    commandOf (.block (k.toList.map BitVec.toNat) c.toNat (n.toList.map BitVec.toNat) r) = some (.block rounds k c n) := by
  simp [commandOf, hr]

/-- Settles O6: operands in range are read back as written, and what a line assembles to is the packet of a well-formed command. -/
theorem assembledLinesDecode : Obligations.AssembledLinesDecode := by
  refine ⟨fun b => ⟨rfl, rfl, rfl⟩, fun key nonce => ⟨rfl, fun c => ?_⟩, fun k c n => ⟨?_, fun r => ?_⟩, fun a b c d v => ?_,
    fun key nonce c => ?_, fun reg => ?_, fun l i hl hwf => ?_, fun l p hl => ?_⟩
  · simp [commandOf]
  · exact commandOf_block k c n none 20 rfl
  · exact commandOf_block k c n (some r.val) r rfl
  · simp [commandOf]
  · simp [commandOf]
  · simp [commandOf]
  · exact assembleLine_eq_some_iff.mpr ⟨i, hl, hwf, rfl⟩
  · obtain ⟨i, hi, hwf, rfl⟩ := assembleLine_eq_some_iff.mp hl
    exact ⟨i, hi, decodeOfEncodeIsTheCommand i hwf⟩

/-! ### Responses (R50, R63, R151) -/

theorem legalResponse_error (c : Cause) : legalResponse [c.code] = true := by
  obtain ⟨-, hcode⟩ := c.code_range
  simp [legalResponse, hcode]

theorem legalResponse_ok {payload : List Byte} (h : payload.length < 2 ^ 28) : legalResponse (okCode :: payload) = true := by
  simpa [legalResponse, okCode] using h

/-- The outcome is a next state, with one legal response more than `s` and the same events waiting at the port. -/
def AnswersLegally (s : State) (r : Result) : Prop :=
  ∃ (t : State) (q : Packet), r = .next t ∧ t.inbox = s.inbox ∧ t.responses = s.responses ++ [q] ∧ legalResponse q = true

theorem answersLegally_error (c : Cause) (s : State) : AnswersLegally s (.next (emit [c.code] s)) :=
  ⟨_, _, rfl, rfl, rfl, legalResponse_error c⟩

theorem answersLegally_ok {payload : List Byte} (h : payload.length < 2 ^ 28) {s s' : State} (hinbox : s'.inbox = s.inbox)
    (hresponses : s'.responses = s.responses) : AnswersLegally s (.next (emit (okCode :: payload) s')) :=
  ⟨_, _, rfl, hinbox, congrArg (· ++ _) hresponses, legalResponse_ok h⟩

theorem answersLegally_serialize (w : Vector Word 16) (s : State) : AnswersLegally s (.next (emit (okCode :: serialize w) s)) :=
  answersLegally_ok (by simp) rfl rfl

/-- Every command that has a packet gives one legal response; the bound on a PROCESS buffer is its packet's (R54). -/
theorem exec_answersLegally (i : Instr) (hwf : i.wellFormed = true) (s : State) : AnswersLegally s (exec i s) := by
  cases i with
  | construct key nonce c =>
    obtain ⟨hk, hn, h⟩ | ⟨-, -, h⟩ | ⟨-, h⟩ := execConstruct_cases key nonce c s <;> rw [exec, h]
    · exact answersLegally_ok (by simp) rfl rfl
    · exact answersLegally_error ..
    · exact answersLegally_error ..
  | process input =>
    have hinput : input.length < 2 ^ 28 := of_decide_eq_true hwf
    cases hs : s.loaded with
    | true =>
      rw [exec, execProcess_loaded input hs]
      exact answersLegally_ok (by rwa [xorStream_length]) rfl rfl
    | false =>
      rw [exec, execProcess_unloaded input hs]
      exact answersLegally_error ..
  | block rounds k c n =>
    by_cases h : rounds.val % 2 = 0
    · rw [exec, execBlock_even h]
      exact answersLegally_serialize ..
    · rw [exec, execBlock_odd h]
      exact answersLegally_error ..
  | qround a b c d v =>
    by_cases h : Distinct a b c d
    · rw [exec, execQround_distinct h]
      exact answersLegally_serialize ..
    · rw [exec, execQround_repeated h]
      exact answersLegally_error ..
  | build key nonce c => exact answersLegally_serialize ..
  | rdreg reg =>
    cases h : readRegister reg s with
    | ok w =>
      rw [exec, execRdreg_value h]
      exact answersLegally_ok (by simp) rfl rfl
    | error e =>
      rw [exec, execRdreg_error h]
      exact answersLegally_error ..

theorem runPacket_answersLegally (p : Packet) (s : State) : AnswersLegally s (runPacket p s) := by
  cases hp : decodePacket p with
  | error e =>
    rw [runPacket_error hp]
    exact answersLegally_error ..
  | ok i =>
    obtain ⟨hwf, -⟩ := encodeOfDecodeIsThePacket p i hp
    rw [runPacket_ok hp]
    exact exec_answersLegally i hwf s

/-- Settles O14: the step takes the packet away and runs it. -/
theorem oneLegalResponsePerPacket : Obligations.OneLegalResponsePerPacket := by
  intro s p rest hin
  rw [step_command hin]
  exact runPacket_answersLegally p { s with inbox := rest }

theorem ResponsesLegal.append {s t : State} (hs : ResponsesLegal s) {q : Packet} (ht : t.responses = s.responses ++ [q])
    (hq : legalResponse q = true) : ResponsesLegal t := by
  rw [ResponsesLegal, ht, List.forall_mem_append, List.forall_mem_singleton]
  exact ⟨hs, hq⟩

/-- Settles O15: a packet adds one legal response, a reset leaves none, and nothing else makes the core act. -/
theorem responsesStayLegal : Obligations.ResponsesStayLegal := by
  intro s t hs hst
  have hpacket (p : Packet) (rest : List PortEvent) (hin : s.inbox = .command p :: rest) : ResponsesLegal t := by
    obtain ⟨u, q, hu, -, hresponses, hq⟩ := oneLegalResponsePerPacket s p rest hin
    cases hu.symm.trans hst
    exact hs.append hresponses hq
  obtain ⟨u, hu, hcases⟩ := step_cases s
  cases hu.symm.trans hst
  obtain ⟨-, rfl⟩ | ⟨p, rest, -, hin, -⟩ | ⟨p, rest, -, hin, -⟩ | ⟨rest, -, rfl⟩ := hcases
  · exact hs
  · exact hpacket p rest hin
  · exact hpacket p rest hin
  · exact nofun

/-! ### The header of a successful CONSTRUCT (R53) -/

theorem headerWord_construct_eq_iff {key nonce : List Byte} {c : Word} (hwf : (Instr.construct key nonce c).wellFormed = true) :
    headerWord (.construct key nonce c) = 0x1000200C ↔ key.length = 32 ∧ nonce.length = 12 := by
  simp only [Instr.wellFormed, Bool.and_eq_true, decide_eq_true_eq] at hwf
  rw [headerWord, ← BitVec.toNat_inj, BitVec.toNat_ofNat, show (0x1000200C : Word).toNat = 0x10000000 + 2 ^ 8 * 32 + 12 from rfl]
  omega

theorem execConstruct_succeeds_iff (key nonce : List Byte) (c : Word) (s : State) :
    (∃ t, execConstruct key nonce c s = .next t ∧ t.responses = s.responses ++ [[0x00]] ∧ t.loaded = true) ↔
      key.length = 32 ∧ nonce.length = 12 := by
  constructor
  · rintro ⟨t, ht, hresponses, -⟩
    obtain ⟨hk, hn, -⟩ | ⟨-, -, h⟩ | ⟨-, h⟩ := execConstruct_cases key nonce c s
    · exact ⟨hk, hn⟩
    · cases h.symm.trans ht
      simp [Cause.code] at hresponses
    · cases h.symm.trans ht
      simp [Cause.code] at hresponses
  · rintro ⟨hk, hn⟩
    exact ⟨_, execConstruct_ok hk hn c s, rfl, rfl⟩

/-- Settles O25: success needs the two lengths, and the packet's header is the one that holds them. -/
theorem oneConstructHeaderSucceeds : Obligations.OneConstructHeaderSucceeds := by
  intro s p rest key nonce c hin hp
  obtain ⟨hwf, rfl⟩ := encodeOfDecodeIsThePacket p _ hp
  rw [stepRunsTheDecodedCommand s _ rest _ hin hp, take_four_encode, bytesLe_injective.eq_iff, headerWord_construct_eq_iff hwf]
  exact execConstruct_succeeds_iff key nonce c { s with inbox := rest }

end Machine

end Sys2Proof
end

section
/-!
The family `40_quarter_round_mixer.md`: the quarter round and QROUND (R80 to R86). A quarter round is a function of the words at its
`Quad.indices` (`qr_congr`) and leaves every other word alone (`qr_frame`); both facts about whole lists, that it is a bijection and that
disjoint ones commute, are read off these two and the invertibility of `quarterWords`.
-/

namespace Sys2Proof.Machine

/-! ### The rotation (R81) -/

/-- Settles O40: by cases on whether the bit is moved past bit 31. -/
theorem rotationMovesEachBit : Obligations.RotationMovesEachBit := by
  intro x n h1 h31 i hi
  have hmod : n % 32 = n := Nat.mod_eq_of_lt (by omega)
  rw [rotl32_eq_rotateLeft x n h1 h31, BitVec.getLsbD_rotateLeft, hmod]
  by_cases hwrap : i + n < 32
  · have hpos : (i + n) % 32 = i + n := Nat.mod_eq_of_lt hwrap
    simp [hpos, hwrap]
  · have hpos : (i + n) % 32 = i + n - 32 := by omega
    have hback : 32 - n + (i + n - 32) = i := by omega
    have hlow : i + n - 32 < n := by omega
    simp [hpos, hback, hlow]

/-- "No bit is lost" (R81): the result holds each bit of the operand, so it determines the operand. -/
theorem rotl32_injective {n : Nat} (h1 : 1 ≤ n) (h31 : n ≤ 31) : Function.Injective (rotl32 · n) := by
  intro x y hxy
  refine BitVec.eq_of_getLsbD_eq fun i hi => ?_
  rw [← rotationMovesEachBit x n h1 h31 i hi, ← rotationMovesEachBit y n h1 h31 i hi]
  exact congrArg (BitVec.getLsbD · _) hxy

/-! ### Four words (R83, R86) -/

/-- Undoing `y ^= z; y = rotl32(y, m)` once `z` is known. -/
theorem rotl32_xor_cancel {m : Nat} (h1 : 1 ≤ m) (h31 : m ≤ 31) {y y' z z' : Word} (hz : z = z')
    (h : rotl32 (y ^^^ z) m = rotl32 (y' ^^^ z') m) : y = y' := by
  subst hz
  exact (BitVec.xor_left_inj z).mp (rotl32_injective h1 h31 h)

/-- Undoing `x += y` once `y` is known. -/
theorem add32_cancel {x x' y y' : Word} (hy : y = y') (h : add32 x y = add32 x' y') : x = x' := by
  subst hy
  exact (BitVec.add_left_inj y).mp h

/-- `QR4` merges no two quadruples of words: the assignments are undone from the last to the first (R86). -/
theorem quarterWords_inj {a b c d a' b' c' d' : Word} (h : quarterWords a b c d = quarterWords a' b' c' d') :
    a = a' ∧ b = b' ∧ c = c' ∧ d = d' := by
  simp only [quarterWords, Prod.mk.injEq] at h
  obtain ⟨ha2, hb2, hc2, hd2⟩ := h
  have hb1 := rotl32_xor_cancel (by decide) (by decide) hc2 hb2
  have hc1 := add32_cancel hd2 hc2
  have hd1 := rotl32_xor_cancel (by decide) (by decide) ha2 hd2
  have ha1 := add32_cancel hb1 ha2
  have hb := rotl32_xor_cancel (by decide) (by decide) hc1 hb1
  have hc := add32_cancel hd1 hc1
  have hd := rotl32_xor_cancel (by decide) (by decide) ha1 hd1
  exact ⟨add32_cancel hb ha1, hb, hc, hd⟩

/-- The four words of `qr4` are those of `quarterWords` (R83). -/
theorem qr4_eq (a b c d : Word) :
    qr4 a b c d = #v[(quarterWords a b c d).1, (quarterWords a b c d).2.1, (quarterWords a b c d).2.2.1,
      (quarterWords a b c d).2.2.2] := rfl

/-! ### The words a quarter round reads and writes (R83) -/

/-- The four positions of a quadruple. -/
abbrev Quad.indices {n : Nat} (q : Quad n) : List (Fin n) := [q.a, q.b, q.c, q.d]

theorem Quad.forall_mem_indices {n : Nat} {q : Quad n} {P : Fin n → Prop} :
    (∀ i ∈ q.indices, P i) ↔ P q.a ∧ P q.b ∧ P q.c ∧ P q.d := by
  simp [Quad.indices]

/-- Every word outside the four is returned unchanged. -/
theorem qr_frame {n : Nat} (v : Vector Word n) {q : Quad n} {j : Fin n} (hj : j ∉ q.indices) : (qr v q)[j] = v[j] := by
  obtain ⟨ha, hb, hc, hd⟩ := Quad.forall_mem_indices.mp fun i hi => ne_of_mem_of_not_mem hi hj
  exact qr_other v q j ha.symm hb.symm hc.symm hd.symm

/-- The new words at the four positions depend on the old words there alone. -/
theorem qr_congr {n : Nat} {v w : Vector Word n} {q : Quad n} (h : ∀ i ∈ q.indices, v[i] = w[i]) :
    ∀ j ∈ q.indices, (qr v q)[j] = (qr w q)[j] := by
  obtain ⟨ha, hb, hc, hd⟩ := Quad.forall_mem_indices.mp h
  refine Quad.forall_mem_indices.mpr ?_
  simp only [qr_a, qr_b, qr_c, qr_d, ha, hb, hc, hd, and_self]

/-- The new words at the four positions determine the old words there. -/
theorem qr_congr_inv {n : Nat} {v w : Vector Word n} {q : Quad n} (h : qr v q = qr w q) : ∀ i ∈ q.indices, v[i] = w[i] := by
  have hwords : quarterWords v[q.a] v[q.b] v[q.c] v[q.d] = quarterWords w[q.a] w[q.b] w[q.c] w[q.d] := by
    simp only [Prod.ext_iff, ← qr_a, ← qr_b, ← qr_c, ← qr_d, h, and_self]
  exact Quad.forall_mem_indices.mpr (quarterWords_inj hwords)

/-- Settles O36: the laws of the quarter round, on `v` and on the four-word list. -/
theorem quarterRoundActsOnFourWords : Obligations.QuarterRoundActsOnFourWords := by
  intro n q v
  rw [qr4_eq]
  exact ⟨qr_other v q, qr_a v q, qr_b v q, qr_c v q, qr_d v q⟩

/-- Settles O37: each side is evaluated. -/
theorem quarterRoundVectors : Obligations.QuarterRoundVectors :=
  ⟨by decide, by decide, by decide, by decide⟩

/-! ### Bijection (R86) -/

theorem qr_injective {n : Nat} (q : Quad n) : Function.Injective fun v : Vector Word n => qr v q := by
  intro v w (h : qr v q = qr w q)
  refine vector_ext_fin fun j => ?_
  by_cases hj : j ∈ q.indices
  · exact qr_congr_inv h j hj
  · rw [← qr_frame v hj, h, qr_frame w hj]

theorem finite_wordVector (n : Nat) : Finite (Vector Word n) :=
  .of_injective (fun v (j : Fin n) => v[j]) fun _ _ h => vector_ext_fin (congrFun h)

/-- Settles O38: the quarter round merges no two lists, and there are finitely many of a length. -/
theorem quarterRoundIsBijective : Obligations.QuarterRoundIsBijective := fun n q =>
  have := finite_wordVector n
  Finite.injective_iff_bijective.mp (qr_injective q)

/-! ### Disjoint quarter rounds (R82, R102) -/

theorem qr_comm_at {n : Nat} (v : Vector Word n) {p q : Quad n} (hpq : p.indices.Disjoint q.indices) {j : Fin n}
    (hj : j ∈ p.indices) : (qr (qr v p) q)[j] = (qr (qr v q) p)[j] :=
  calc (qr (qr v p) q)[j]
    _ = (qr v p)[j] := qr_frame _ (hpq hj)
    _ = (qr (qr v q) p)[j] := qr_congr (fun _ hi => (qr_frame v (hpq hi)).symm) j hj

/-- Settles O39: a word of either quadruple is untouched by the other's quarter round, and a word of neither by both. -/
theorem disjointQuarterRoundsCommute : Obligations.DisjointQuarterRoundsCommute := by
  intro n p q v h
  have hpq : p.indices.Disjoint q.indices := List.disjoint_iff_ne.mpr h
  refine vector_ext_fin fun j => ?_
  by_cases hp : j ∈ p.indices
  · exact qr_comm_at v hpq hp
  by_cases hq : j ∈ q.indices
  · exact (qr_comm_at v hpq.symm hq).symm
  · rw [qr_frame _ hq, qr_frame _ hp, qr_frame _ hp, qr_frame _ hq]

/-! ### QROUND (R85) -/

/-- The twelve assignments, three to a line, with the rotations as the bit-vector library's (R80). -/
theorem qr_assignments {n : Nat} (v : Vector Word n) (q : Quad n) :
    ∃ a1 d1 c1 b1 : Word,
      a1 = v[q.a] + v[q.b] ∧ d1 = (v[q.d] ^^^ a1).rotateLeft 16 ∧ c1 = v[q.c] + d1 ∧ b1 = (v[q.b] ^^^ c1).rotateLeft 12 ∧
      (qr v q)[q.a] = a1 + b1 ∧ (qr v q)[q.d] = (d1 ^^^ (qr v q)[q.a]).rotateLeft 8 ∧ (qr v q)[q.c] = c1 + (qr v q)[q.d] ∧
      (qr v q)[q.b] = (b1 ^^^ (qr v q)[q.c]).rotateLeft 7 := by
  have hrot (x : Word) {m : Nat} (h1 : 1 ≤ m) (h31 : m ≤ 31) : x.rotateLeft m = rotl32 x m :=
    (rotl32_eq_rotateLeft x m h1 h31).symm
  rw [qr_a, qr_b, qr_c, qr_d]
  refine ⟨_, _, _, _, rfl, rfl, rfl, rfl, ?_⟩
  simp [hrot, quarterWords, add32]

/-- Settles O35: the two answers of `execQround`, the second with the quarter round's frame and its twelve assignments. -/
theorem qroundFollowsItsRule : Obligations.QroundFollowsItsRule := by
  intro a b c d v s
  refine ⟨fun h => execQround_repeated h v s, fun h => ?_⟩
  let q : Quad 16 := ⟨a, b, c, d, h⟩
  exact ⟨qr v q, execQround_distinct h v s, qr_other v q, qr_assignments v q⟩

end Sys2Proof.Machine
end

section
/-!
The family `41_state_builder.md`: the state builder and BUILD (R90 to R96). The initial state is the constants followed by the twelve
operands as one list (R95, `buildState_eq_append`), from which both its words and its bytes are read.
-/

namespace Sys2Proof.Machine

/-! ### The words of the initial state (R90, R95) -/

/-- "With the twelve operands taken as one list `p`: `S = CONST ++ p`" (R95). -/
theorem buildState_eq_append (k : Vector Word 8) (c : Word) (n : Vector Word 3) :
    buildState k c n = constWords ++ paramRegs k c n := rfl

/-- A register file is rebuilt from its three parts (R11). -/
@[simp] theorem paramRegs_of_registers (x : Vector Word 12) : paramRegs (keyWords x) (ctrWord x) (nonceWords x) = x :=
  regs_ext (keyWords_paramRegs ..) (ctrWord_paramRegs ..) (nonceWords_paramRegs ..)

/-- Word `4 + j` is operand `j` of the list. -/
theorem buildState_get_operand (k : Vector Word 8) (c : Word) (n : Vector Word 3) (j : Nat) (hj : j < 12) :
    (buildState k c n)[4 + j] = (paramRegs k c n)[j] :=
  calc (buildState k c n)[4 + j]
    _ = (paramRegs k c n)[4 + j - 4] :=
      Vector.getElem_append_right (xs := constWords) (ys := paramRegs k c n) _ (Nat.le_add_right 4 j)
    _ = (paramRegs k c n)[j] := by simp only [Nat.add_sub_cancel_left]

/-- Settles O41: the constants stand first, and the operands after them are the register file itself. -/
theorem initialStateLayout : Obligations.InitialStateLayout := by
  rintro x S rfl
  refine ⟨rfl, rfl, rfl, rfl, fun j hj => ?_⟩
  rw [buildState_get_operand, paramRegs_of_registers]

/-! ### The bytes of the initial state (R91, R93) -/

/-- The sixteen ASCII codes of the text "expand 32-byte k" (R91). -/
def expandText : List Byte :=
  [0x65, 0x78, 0x70, 0x61, 0x6e, 0x64, 0x20, 0x33, 0x32, 0x2d, 0x62, 0x79, 0x74, 0x65, 0x20, 0x6b]

/-- The constants are the text as little-endian words (R91). -/
theorem wordsToBytes_constWords : wordsToBytes constWords.toList = expandText := by decide

/-- The operands as one list: `p = k ++ [ctr] ++ n` (R95). -/
theorem paramRegs_toList (k : Vector Word 8) (c : Word) (n : Vector Word 3) :
    (paramRegs k c n).toList = k.toList ++ c :: n.toList := by
  have hk : k.toList = [k[0], k[1], k[2], k[3], k[4], k[5], k[6], k[7]] := Vector.toList_inj.mpr (keyWords_paramRegs c k n).symm
  have hn : n.toList = [n[0], n[1], n[2]] := Vector.toList_inj.mpr (nonceWords_paramRegs c k n).symm
  rw [hk, hn]
  rfl

/-- `Serialize` of an initial state takes the parts of its layout one after another. -/
theorem serialize_buildState (k : Vector Word 8) (c : Word) (n : Vector Word 3) :
    serialize (buildState k c n) = expandText ++ wordsToBytes k.toList ++ bytesLe c ++ wordsToBytes n.toList := by
  rw [serialize, buildState_eq_append, Vector.toList_append, paramRegs_toList, wordsToBytes_append, wordsToBytes_constWords]
  simp

/-- `Serialize` undoes `words_le` on the key and on the nonce, so their bytes come back unchanged (R93). -/
theorem serialize_buildStateBytes (key : Vector Byte 32) (nonce : Vector Byte 12) (c : Word) :
    serialize (buildStateBytes key nonce c) = expandText ++ key.toList ++ bytesLe c ++ nonce.toList := by
  have hkey : wordsToBytes (wordsLe key.toList) = key.toList := wordsToBytes_wordsLe 8 _ (by simp)
  have hnonce : wordsToBytes (wordsLe nonce.toList) = nonce.toList := wordsToBytes_wordsLe 3 _ (by simp)
  rw [buildStateBytes, serialize_buildState, wordsOf_toList, wordsOf_toList, hkey, hnonce]

/-- Settles O42: BUILD answers the serialized initial state, whose bytes are those of `serialize_buildStateBytes`. -/
theorem buildReturnsTextKeyCounterNonce : Obligations.BuildReturnsTextKeyCounterNonce := by
  intro key nonce c s
  calc execBuild key nonce c s
    _ = .next (emit (okCode :: serialize (buildStateBytes key nonce c)) s) := execBuild_eq key nonce c s
    _ = .next (emit (okCode :: (expandText ++ key.toList ++ bytesLe c ++ nonce.toList)) s) := by
      rw [serialize_buildStateBytes]

end Sys2Proof.Machine
end

section
/-!
The family `42_block_function.md`: serialization, the double round, BLOCK and its packet (R100 to R108). A double round is two passes
of quarter rounds at pairwise disjoint positions (`doubleRound_eq`); what a pass does to each of its quadruples (`words_mixPass`) and
that it is a bijection (`mixPass_bijective`) are proved once for any list of quadruples.
-/

namespace Sys2Proof

/-! ### The packet of BLOCK from bytes (R55, R107) -/

/-- Format F-BLK: the round count is the header's low byte, and the opcode stands alone in the top one. -/
theorem bytesLe_headerWord_block (rounds : Fin 256) (k : Vector Word 8) (c : Word) (n : Vector Word 3) :
    bytesLe (headerWord (.block rounds k c n)) = [BitVec.ofNat 8 rounds.val, 0x00, 0x00, 0x30] := by
  have hheader : headerWord (.block rounds k c n) = le32 (BitVec.ofNat 8 rounds.val) 0x00 0x00 0x30 := by
    apply BitVec.eq_of_toNat_eq
    simp only [headerWord, le32_toNat, BitVec.toNat_ofNat, show (0x00 : Byte).toNat = 0 from rfl,
      show (0x30 : Byte).toNat = 0x30 from rfl]
    omega
  rw [hheader, bytesLe_le32]

/-- `words_le` "on the little-endian port changes no byte", so a host that holds bytes sends them as they are (R107). -/
theorem encode_block_wordsOf (rounds : Fin 256) {key nonce : List Byte} (c : Word) (hk : key.length = 4 * 8)
    (hn : nonce.length = 4 * 3) :
    encode (.block rounds (Machine.wordsOf 8 key hk) c (Machine.wordsOf 3 nonce hn)) =
      [BitVec.ofNat 8 rounds.val, 0x00, 0x00, 0x30] ++ key ++ bytesLe c ++ nonce := by
  rw [encode, bytesLe_headerWord_block, payloadOf, Machine.wordsOf_toList, Machine.wordsOf_toList, wordsToBytes_wordsLe 8 key hk,
    wordsToBytes_wordsLe 3 nonce hn, List.append_assoc, List.append_assoc, List.append_assoc]

/-- Settles O7: the bytes are the packet of the command that they should decode to. -/
theorem blockPacketFromBytes : Obligations.BlockPacketFromBytes := by
  intro rounds key nonce c hk hn
  rw [← encode_block_wordsOf rounds c hk hn]
  exact decodeOfEncodeIsTheCommand _ rfl

/-! ### Serialization (R106) -/

/-- Byte `4 i + j` of a list of words is byte `j` of word `i`. -/
theorem wordsToBytes_getD {j : Nat} (hj : j < 4) : ∀ (ws : List Word) (i : Nat) (hi : i < ws.length),
    (wordsToBytes ws).getD (4 * i + j) 0 = (bytesLe ws[i]).getD j 0 := by
  intro ws
  induction ws with
  | nil => exact fun i hi => absurd hi (Nat.not_lt_zero i)
  | cons w ws ih =>
    intro i hi
    rw [wordsToBytes_cons]
    cases i with
    | zero =>
      rw [Nat.mul_zero, Nat.zero_add]
      exact List.getD_append (bytesLe w) (wordsToBytes ws) 0 j hj
    | succ i =>
      rw [List.getD_append_right _ _ _ _ (by rw [bytesLe_length]; omega), bytesLe_length,
        show 4 * (i + 1) + j - 4 = 4 * i + j by omega]
      exact ih i (Nat.lt_of_succ_lt_succ hi)

end Sys2Proof

namespace Sys2Proof.Machine

/-- Settles O44: the bytes stand word after word, `words_le` reads the words back, and so it finds the words of any 64 bytes. -/
theorem serializeIsABijection : Obligations.SerializeIsABijection := by
  refine ⟨fun w => ⟨serialize_length w, fun i j hi hj => ?_⟩, fun w => wordsLe_wordsToBytes w.toList, fun bs hbs => ?_⟩
  · exact wordsToBytes_getD hj w.toList i (by simpa using hi)
  · obtain ⟨w, hw⟩ := exists_wordsToBytes (n := 16) hbs
    exact ⟨w, hw, fun w' hw' => serialize_injective (hw'.trans hw.symm)⟩

/-! ### Passes of quarter rounds (R101, R102) -/

/-- The four words of a list at the positions of a quadruple. -/
def Quad.words {n : Nat} (q : Quad n) (v : Vector Word n) : Vector Word 4 := #v[v[q.a], v[q.b], v[q.c], v[q.d]]

/-- Quarter rounds one after another. -/
def mixPass {n : Nat} (qs : List (Quad n)) (v : Vector Word n) : Vector Word n := qs.foldl qr v

/-- Quadruples with no position in common. -/
abbrev Quad.Disjoint {n : Nat} (p q : Quad n) : Prop := ∀ i ∈ p.indices, ∀ j ∈ q.indices, i ≠ j

theorem Quad.Disjoint.symm {n : Nat} {p q : Quad n} (h : p.Disjoint q) : q.Disjoint p :=
  fun i hi j hj => (h j hj i hi).symm

/-- The words at its positions become what `QR4` makes of them (R83). -/
theorem words_qr {n : Nat} (v : Vector Word n) (q : Quad n) : q.words (qr v q) = qr (q.words v) firstFour :=
  calc q.words (qr v q)
    _ = qr4 v[q.a] v[q.b] v[q.c] v[q.d] := by simp only [Quad.words, qr4_eq, qr_a, qr_b, qr_c, qr_d]
    _ = qr (q.words v) firstFour := rfl

theorem words_qr_disjoint {n : Nat} (v : Vector Word n) {p q : Quad n} (h : p.Disjoint q) : q.words (qr v p) = q.words v := by
  obtain ⟨ha, hb, hc, hd⟩ : (qr v p)[q.a] = v[q.a] ∧ (qr v p)[q.b] = v[q.b] ∧ (qr v p)[q.c] = v[q.c] ∧ (qr v p)[q.d] = v[q.d] :=
    Quad.forall_mem_indices.mp fun j hj => qr_frame v fun hp => h j hp j hj rfl
  rw [Quad.words, Quad.words, ha, hb, hc, hd]

/-- A pass leaves the words at positions outside all of its quadruples. -/
theorem words_mixPass_disjoint {n : Nat} {q : Quad n} {qs : List (Quad n)} (h : ∀ p ∈ qs, q.Disjoint p) (v : Vector Word n) :
    q.words (mixPass qs v) = q.words v := by
  induction qs generalizing v with
  | nil => rfl
  | cons p qs ih =>
    obtain ⟨hp, hqs⟩ := List.forall_mem_cons.mp h
    exact (ih hqs (qr v p)).trans (words_qr_disjoint v hp.symm)

/-- A pass at pairwise disjoint positions mixes the words of each of its quadruples from the words before the pass (R102). -/
theorem words_mixPass {n : Nat} {qs : List (Quad n)} (hqs : qs.Pairwise Quad.Disjoint) (v : Vector Word n) :
    ∀ q ∈ qs, q.words (mixPass qs v) = qr (q.words v) firstFour := by
  induction qs generalizing v with
  | nil => exact fun _ hq => absurd hq List.not_mem_nil
  | cons p qs ih =>
    obtain ⟨hp, hqs⟩ := List.pairwise_cons.mp hqs
    refine List.forall_mem_cons.mpr ⟨?_, fun q hq => ?_⟩
    · exact (words_mixPass_disjoint hp (qr v p)).trans (words_qr v p)
    · exact (ih hqs (qr v p) q hq).trans (congrArg (qr · firstFour) (words_qr_disjoint v (hp q hq)))

theorem mixPass_bijective {n : Nat} (qs : List (Quad n)) : Function.Bijective (mixPass qs) := by
  induction qs with
  | nil => exact Function.bijective_id
  | cons q qs ih => exact ih.comp (quarterRoundIsBijective n q)

/-! ### The double round (R101, R108) -/

/-- The columns of the 4 by 4 matrix of words. -/
def columns : List (Quad 16) := [column0, column1, column2, column3]

/-- The wrapped diagonals of the 4 by 4 matrix of words. -/
def diagonals : List (Quad 16) := [diagonal0, diagonal1, diagonal2, diagonal3]

/-- A double round is a pass over the columns and one over the diagonals. -/
theorem doubleRound_eq (w : Vector Word 16) : doubleRound w = mixPass diagonals (mixPass columns w) := rfl

theorem columns_disjoint : columns.Pairwise Quad.Disjoint := by decide

theorem diagonals_disjoint : diagonals.Pairwise Quad.Disjoint := by decide

/-- Column `i` holds words `i`, `4 + i`, `8 + i` and `12 + i`. -/
theorem column_words {w u : Vector Word 16} (h : ∀ q ∈ columns, q.words u = qr (q.words w) firstFour) (i : Nat) (hi : i < 4) :
    #v[u[i], u[4 + i], u[8 + i], u[12 + i]] = qr4 w[i] w[4 + i] w[8 + i] w[12 + i] := by
  interval_cases i
  · exact h column0 (by decide)
  · exact h column1 (by decide)
  · exact h column2 (by decide)
  · exact h column3 (by decide)

/-- Diagonal `i` starts in column `i` and goes one column on in each row, wrapping at the end. -/
theorem diagonal_words {w u : Vector Word 16} (h : ∀ q ∈ diagonals, q.words u = qr (q.words w) firstFour) (i : Nat) (hi : i < 4) :
    #v[u[i], u[4 + (i + 1) % 4], u[8 + (i + 2) % 4], u[12 + (i + 3) % 4]] =
      qr4 w[i] w[4 + (i + 1) % 4] w[8 + (i + 2) % 4] w[12 + (i + 3) % 4] := by
  interval_cases i
  · exact h diagonal0 (by decide)
  · exact h diagonal1 (by decide)
  · exact h diagonal2 (by decide)
  · exact h diagonal3 (by decide)

/-- Settles O46: `u` is what the pass over the columns leaves, and the pass over the diagonals starts from it. -/
theorem doubleRoundMixesColumnsThenDiagonals : Obligations.DoubleRoundMixesColumnsThenDiagonals := by
  intro w
  have hcolumns := words_mixPass columns_disjoint w
  have hdiagonals := words_mixPass diagonals_disjoint (mixPass columns w)
  rw [← doubleRound_eq] at hdiagonals
  exact ⟨mixPass columns w, fun i hi => ⟨column_words hcolumns i hi, diagonal_words hdiagonals i hi⟩⟩

theorem doubleRounds_eq_iterate (m : Nat) : doubleRounds m = doubleRound^[m] := by
  induction m with
  | zero => rfl
  | succ m ih => exact congrArg (· ∘ doubleRound) ih

/-- The double round is a composition of its two passes (`doubleRound_eq`). -/
theorem doubleRound_bijective : Function.Bijective doubleRound :=
  (mixPass_bijective diagonals).comp (mixPass_bijective columns)

/-- Settles O48: each double round is two passes, and a pass is a composition of quarter rounds. -/
theorem doubleRoundsAreBijective : Obligations.DoubleRoundsAreBijective := by
  intro m
  rw [doubleRounds_eq_iterate]
  exact doubleRound_bijective.iterate m

/-! ### BLOCK (R100, R104, R107) -/

theorem addWords_get (v w : Vector Word 16) (i : Nat) (hi : i < 16) : (addWords v w)[i] = v[i] + w[i] := by
  simp [addWords, add32]

/-- Settles O45: the two answers of `execBlock`, the second with each word of the sum. -/
theorem blockFollowsItsRule : Obligations.BlockFollowsItsRule := by
  intro rounds k c n s
  refine ⟨fun hodd => execBlock_odd (by omega) k c n s, fun heven => ?_⟩
  refine ⟨block k c n rounds.val heven, execBlock_even heven k c n s, fun i hi => ?_⟩
  rw [block, addWords_get, doubleRounds_eq_iterate]

/-- With no rounds the initial state is added to itself (R104). -/
theorem block_zero (k : Vector Word 8) (c : Word) (n : Vector Word 3) :
    block k c n 0 rfl = addWords (buildState k c n) (buildState k c n) := rfl

theorem serialize_addWords_self (v : Vector Word 16) : serialize (addWords v v) = v.toList.flatMap fun w => bytesLe (w + w) := by
  have hwords : (addWords v v).toList = v.toList.map fun w => w + w := List.zipWith_self
  rw [serialize, hwords, wordsToBytes, List.flatMap_map]

/-- Settles O47: the round count 0 is even, and each word of the sum is a word of the initial state doubled. -/
theorem blockOfNoRoundsDoubles : Obligations.BlockOfNoRoundsDoubles := by
  intro k c n s
  rw [← serialize_addWords_self, ← block_zero]
  exact execBlock_even (rounds := 0) rfl k c n s

/-! ### PROCESS of zeros (R107, R132) -/

theorem xorBytes_zeros (ks : List Byte) : xorBytes (List.replicate ks.length 0) ks = ks := by
  have hlen : (List.replicate ks.length (0 : Byte)).length = ks.length := List.length_replicate
  apply List.ext_getElem
  · rw [xorBytes_length _ _ hlen.le, hlen]
  · simp [xorBytes]

/-- The stream over `m` chunks of zeros is the keystream itself: its blocks, one after another. -/
theorem xorStream_zeros (k : Vector Word 8) (n : Vector Word 3) (c : Word) (m : Nat) :
    xorStream k n c (List.replicate (64 * m) 0) = (List.range m).flatMap fun j => keystream k n (c + BitVec.ofNat 32 j) := by
  induction m with
  | zero => rfl
  | succ m ih =>
    have hlast : xorStream k n (c + BitVec.ofNat 32 m) (List.replicate 64 0) = keystream k n (c + BitVec.ofNat 32 m) := by
      rw [xorStream_short _ _ _ _ (by simp), ← keystream_length k n (c + BitVec.ofNat 32 m), xorBytes_zeros]
    rw [Nat.mul_succ, List.replicate_add, xorStream_append k n c _ _ m (by simp), ih, hlast, List.range_succ,
      List.flatMap_append, List.flatMap_singleton]

/-- The response of BLOCK with the round count of PROCESS is a keystream block (R130). -/
theorem eq_keystream_of_exec_block {k : Vector Word 8} {n : Vector Word 3} {c : Word} {s : State} {out : List Byte}
    (h : exec (.block 20 k c n) s = .next { s with responses := s.responses ++ [0x00 :: out] }) : out = keystream k n c := by
  have heq := (execBlock_even (rounds := 20) rfl k c n s).symm.trans h
  injection heq with hstate
  have hresponses : s.responses ++ [okCode :: keystream k n c] = s.responses ++ [0x00 :: out] :=
    congrArg State.responses hstate
  simpa [okCode] using hresponses.symm

/-- Settles O34: the stream over zeros is the blocks in order, and each BLOCK returns its block. -/
theorem processOfZerosIsBlocks : Obligations.ProcessOfZerosIsBlocks := by
  intro m s outs hs hblocks
  refine ⟨_, execProcess_loaded _ hs, ?_⟩
  have houts : (List.range m).flatMap outs =
      (List.range m).flatMap fun j => keystream (keyWords s.x) (nonceWords s.x) (ctrWord s.x + BitVec.ofNat 32 j) :=
    List.flatMap_congr fun j hj => eq_keystream_of_exec_block (hblocks j (List.mem_range.mp hj))
  rw [emit_responses, xorStream_zeros, houts]
  rfl

end Sys2Proof.Machine
end

section
/-!
The family `43_stream_xor_engine.md`: CONSTRUCT and PROCESS (R120 to R133). What PROCESS does is a function of the registers alone: the
bytes it returns (`processOutput`) and the registers it leaves (`processRegs`). Each of the two takes a message apart at a block boundary
(`processOutput_append`, `processRegs_append`), and from these a message sent in any number of pieces is put together.
-/

namespace Sys2Proof.Machine

/-! ### PROCESS as a function of the registers (R122) -/

/-- The bytes that PROCESS returns from a loaded register file (R132). -/
def processOutput (x : Vector Word 12) (input : List Byte) : List Byte :=
  xorStream (keyWords x) (nonceWords x) (ctrWord x) input

/-- The register file that PROCESS leaves (R123). -/
def processRegs (x : Vector Word 12) (input : List Byte) : Vector Word 12 :=
  x.set 8 (ctrWord x + BitVec.ofNat 32 (chunkCount input.length))

theorem afterProcess_x (input : List Byte) (s : State) : (afterProcess input s).x = processRegs s.x input := rfl

theorem afterProcess_responses (input : List Byte) (s : State) :
    (afterProcess input s).responses = s.responses ++ [okCode :: processOutput s.x input] := rfl

theorem exec_process (input : List Byte) {s : State} (hs : s.loaded = true) :
    exec (.process input) s = .next (afterProcess input s) :=
  execProcess_loaded input hs

section
variable (x : Vector Word 12) (input : List Byte)

@[simp] theorem keyWords_processRegs : keyWords (processRegs x input) = keyWords x := keyWords_setCtr ..

@[simp] theorem nonceWords_processRegs : nonceWords (processRegs x input) = nonceWords x := nonceWords_setCtr ..

@[simp] theorem ctrWord_processRegs :
    ctrWord (processRegs x input) = ctrWord x + BitVec.ofNat 32 (chunkCount input.length) := ctrWord_setCtr ..

@[simp] theorem processOutput_length : (processOutput x input).length = input.length := xorStream_length ..

end

/-- The registers left depend on the length of the buffer alone. -/
theorem processRegs_congr (x : Vector Word 12) {a b : List Byte} (h : a.length = b.length) :
    processRegs x a = processRegs x b := by
  rw [processRegs, processRegs, h]

/-! ### CONSTRUCT (R120, R121) -/

theorem paramRegs_get_key (k : Vector Word 8) (c : Word) (n : Vector Word 3) (i : Nat) (hi : i < 8) :
    (paramRegs k c n)[i] = k[i] := by
  rw [← keyWords_get _ i hi, keyWords_paramRegs]

theorem paramRegs_get_nonce (k : Vector Word 8) (c : Word) (n : Vector Word 3) (i : Nat) (hi : i < 3) :
    (paramRegs k c n)[9 + i] = n[i] := by
  rw [← nonceWords_get _ i hi, nonceWords_paramRegs]

/-- Settles O24: the three answers of `execConstruct`, the last with each word of the register file it loads. -/
theorem constructFollowsItsRule : Obligations.ConstructFollowsItsRule := by
  intro key nonce c s
  refine ⟨fun hk => execConstruct_keyLen hk nonce c s, fun hk hn => execConstruct_nonceLen hk hn c s, fun hk hn => ?_⟩
  refine ⟨_, execConstruct_ok hk hn c s, rfl, rfl, rfl, fun i hi => ?_, rfl, fun i hi => ?_⟩
  · exact (paramRegs_get_key _ c _ i hi).trans (wordsOf_get 8 key hk i hi)
  · exact (paramRegs_get_nonce _ c _ i hi).trans (wordsOf_get 3 nonce hn i hi)

/-! ### One PROCESS (R122 to R132) -/

/-- Byte `i` of the output is byte `i` of the buffer with its keystream byte (R132). -/
theorem processOutput_getD (x : Vector Word 12) {input : List Byte} {i : Nat} (hi : i < input.length) :
    (processOutput x input).getD i 0 = input.getD i 0 ^^^
      (keystream (keyWords x) (nonceWords x) (ctrWord x + BitVec.ofNat 32 (i / 64))).getD (i % 64) 0 := by
  rw [processOutput, xorStream, List.getD_eq_getElem _ _ (by simpa using hi), List.getElem_mapIdx, List.getD_eq_getElem _ _ hi]

/-- Settles O26: the state and the bytes are those of the loop's closed form. -/
theorem processFollowsItsRule : Obligations.ProcessFollowsItsRule := fun input s hs =>
  ⟨processOutput s.x input, exec_process input hs, processOutput_length s.x input, fun _ hi => processOutput_getD s.x hi⟩

/-- Settles O27: without a cipher PROCESS raises `E_NOTLOADED` before it looks at its buffer. -/
theorem processWithoutCipher : Obligations.ProcessWithoutCipher := fun input _ hs =>
  execProcess_unloaded input hs

/-- No byte is no chunk, so the counter is written back as it was (R126). -/
theorem processRegs_nil (x : Vector Word 12) : processRegs x [] = x := by
  rw [processRegs, List.length_nil, chunkCount_zero, BitVec.add_zero, ctrWord, Vector.set_getElem_self]

theorem afterProcess_nil (s : State) : afterProcess [] s = emit [okCode] s :=
  congrArg (fun x => emit [okCode] { s with x := x }) (processRegs_nil s.x)

/-- Settles O28: an empty buffer leaves the registers, and without a cipher it is a buffer like any other. -/
theorem processOfAnEmptyBuffer : Obligations.ProcessOfAnEmptyBuffer := by
  refine fun s => ⟨fun hs => ?_, processWithoutCipher [] s⟩
  rw [exec_process [] hs, afterProcess_nil]
  rfl

/-- The same keystream byte twice is none (R125). -/
theorem processOutput_involutive (x : Vector Word 12) : Function.Involutive (processOutput x) := by
  refine fun input => List.ext_getElem (by simp) fun i _ _ => ?_
  simp only [processOutput, xorStream, List.getElem_mapIdx, BitVec.xor_assoc, BitVec.xor_self, BitVec.xor_zero]

/-- Settles O29: equal registers give the same keystream, and the output is as long as the buffer. -/
theorem processIsAnInvolution : Obligations.ProcessIsAnInvolution := by
  intro input s s' hs hs' hx
  refine ⟨_, _, processOutput s.x input, exec_process input hs, rfl, exec_process _ hs', ?_, ?_⟩
  · rw [afterProcess_responses, hx, processOutput_involutive]
    rfl
  · rw [afterProcess_x, afterProcess_x, hx]
    exact processRegs_congr s.x (processOutput_length s.x input)

/-- Settles O32: one to 64 bytes are one chunk, and the counter after `0xFFFFFFFF` is 0. -/
theorem counterWrapsSilently : Obligations.CounterWrapsSilently := by
  intro input s hs hctr hpos hle
  have hone : chunkCount input.length = 1 := by unfold chunkCount; omega
  have hzero : ctrWord (processRegs s.x input) = 0 := by
    rw [ctrWord_processRegs, hone, ctrWord, hctr]
    rfl
  exact ⟨_, _, exec_process input hs, rfl, hzero, hs⟩

/-! ### A message in pieces (R124, R186) -/

section
variable (x : Vector Word 12) {a : List Byte} (b : List Byte) (h : a.length % 64 = 0)
include h

theorem chunkCount_append : chunkCount (a ++ b).length = chunkCount a.length + chunkCount b.length := by
  simp only [chunkCount, List.length_append]
  omega

/-- After a whole number of blocks the output goes on from the registers that those blocks left. -/
theorem processOutput_append :
    processOutput x (a ++ b) = processOutput x a ++ processOutput (processRegs x a) b := by
  have hlen : a.length = 64 * chunkCount a.length := by unfold chunkCount; omega
  simp only [processOutput, keyWords_processRegs, nonceWords_processRegs, ctrWord_processRegs]
  exact xorStream_append _ _ _ a b _ hlen

/-- After a whole number of blocks the counter goes on from where those blocks left it. -/
theorem processRegs_append : processRegs x (a ++ b) = processRegs (processRegs x a) b := by
  apply regs_ext
  · simp only [keyWords_processRegs]
  · simp only [ctrWord_processRegs, chunkCount_append b h, BitVec.ofNat_add, BitVec.add_assoc]
  · simp only [nonceWords_processRegs]

end

/-- A message at the port in pieces, a cipher loaded: the run returns the bytes and leaves the registers of the whole message. -/
theorem run_pieces {last : List Byte} (hlast : last.length < 2 ^ 28) : ∀ (parts : List (List Byte)) (s : State),
    s.loaded = true → (∀ b ∈ parts, b.length % 64 = 0 ∧ b.length < 2 ^ 28) → s.inbox = processEvents (parts ++ [last]) →
    ∃ (t : State) (outs : List (List Byte)),
      Host.Core.run Sys2Proof.core (parts.length + 1) s = .next t ∧
      t.responses = s.responses ++ outs.map (okCode :: ·) ∧ t.inbox = [] ∧
      outs.flatten = processOutput s.x (parts.flatten ++ last) ∧ t.x = processRegs s.x (parts.flatten ++ last) := by
  intro parts
  induction parts with
  | nil =>
    intro s hs _ hin
    refine ⟨_, [processOutput s.x last], run_succ (step_process hlast hin hs) 0, rfl, rfl, ?_, rfl⟩
    exact List.flatten_singleton
  | cons b bs ih =>
    intro s hs hparts hin
    obtain ⟨⟨hblocks, hb⟩, hbs⟩ := List.forall_mem_cons.mp hparts
    obtain ⟨t, outs, hrun, hresponses, hinbox, houts, hx⟩ :=
      ih (afterProcess b { s with inbox := processEvents (bs ++ [last]) }) hs hbs rfl
    refine ⟨t, processOutput s.x b :: outs, ?_, ?_, hinbox, ?_, ?_⟩
    · exact (run_succ (step_process hb hin hs) _).trans hrun
    · exact hresponses.trans (List.append_assoc ..)
    · rw [List.flatten_cons, List.flatten_cons, List.append_assoc, processOutput_append _ _ hblocks, houts]
      rfl
    · rw [List.flatten_cons, List.append_assoc, processRegs_append _ _ hblocks, hx]
      rfl

/-- Settles O30: the run of the pieces and one PROCESS of the whole give the same bytes and the same registers. -/
theorem messageSplitAtBlocksIsWhole : Obligations.MessageSplitAtBlocksIsWhole := by
  intro parts last s hs hparts hlast hin
  obtain ⟨t, outs, hrun, hresponses, hinbox, houts, hx⟩ := run_pieces hlast parts s hs hparts hin
  refine ⟨t, _, outs, hrun, hresponses, hinbox, exec_process _ hs, ?_, hx⟩
  rw [afterProcess_responses, houts]
  rfl

end Sys2Proof.Machine
end

section
/-!
The family `44_register_access.md`: what RDREG reads (R15, R140, R157), and which commands see the key and the nonce (R141). No other
command than PROCESS sees more of a state than its visible counter, and this is the same in states alike in all but the secrets.
-/

namespace Sys2Proof.Machine

/-! ### The register space (R15) -/

theorem readRegister_const {reg : Fin 32} (h : reg.val < 4) (s : State) : readRegister reg s = .ok constWords[reg.val] :=
  dif_pos h

theorem readRegister_ctr_loaded {s : State} (hs : s.loaded = true) : readRegister 12 s = .ok (ctrWord s.x) :=
  if_pos hs

theorem readRegister_ctr_unloaded {s : State} (hs : s.loaded = false) : readRegister 12 s = .error .notLoaded :=
  if_neg (ne_true_of_eq_false hs)

theorem readRegister_status {s : State} {loaded : Bool} (hs : s.loaded = loaded) :
    readRegister 16 s = .ok (statusWord loaded) := by
  rw [← hs]
  rfl

theorem readRegister_roundsDefault (s : State) : readRegister 17 s = .ok (BitVec.ofNat 32 Config.defaultRounds) := rfl

/-- The numbers of the key, of the nonce and of no register answer alike (R157). -/
theorem readRegister_unreadable {reg : Fin 32}
    (h : (4 ≤ reg.val ∧ reg.val ≤ 11) ∨ (13 ≤ reg.val ∧ reg.val ≤ 15) ∨ 18 ≤ reg.val) (s : State) :
    readRegister reg s = .error .reg := by
  have hconst : ¬ reg.val < 4 := by omega
  have hctr : reg.val ≠ 12 := by omega
  have hstatus : reg.val ≠ 16 := by omega
  have hrounds : reg.val ≠ 17 := by omega
  rw [readRegister, dif_neg hconst, if_neg hctr, if_neg hstatus, if_neg hrounds]

/-- Settles O49: what the register space holds at each number is the response, and a read leaves nothing else. -/
theorem rdregFollowsItsRule : Obligations.RdregFollowsItsRule := by
  intro reg s
  refine ⟨?const0, ?const1, ?const2, ?const3, ?ctr, ?ctrUnloaded, ?status, ?statusUnloaded, ?rounds, ?unreadable⟩
  case const0 => rintro rfl; exact execRdreg_value (readRegister_const (reg := 0) (by decide) s)
  case const1 => rintro rfl; exact execRdreg_value (readRegister_const (reg := 1) (by decide) s)
  case const2 => rintro rfl; exact execRdreg_value (readRegister_const (reg := 2) (by decide) s)
  case const3 => rintro rfl; exact execRdreg_value (readRegister_const (reg := 3) (by decide) s)
  case ctr => rintro rfl hs; exact execRdreg_value (readRegister_ctr_loaded hs)
  case ctrUnloaded => rintro rfl hs; exact execRdreg_error (readRegister_ctr_unloaded hs)
  case status => rintro rfl hs; exact execRdreg_value (readRegister_status hs)
  case statusUnloaded => rintro rfl hs; exact execRdreg_value (readRegister_status hs)
  case rounds => rintro rfl; exact execRdreg_value (readRegister_roundsDefault s)
  case unreadable => exact fun h => execRdreg_error (readRegister_unreadable h s)

/-! ### The secrets (R141) -/

section
variable {s s' : State} (h : SameButSecrets s s')
include h

theorem SameButSecrets.visibleCounter_eq : visibleCounter s' = visibleCounter s := by
  obtain ⟨hloaded, -, -, hctr⟩ := h
  rw [visibleCounter, visibleCounter, hloaded, hctr]

theorem SameButSecrets.emit_congr (q : Packet) : SameButSecrets (emit q s) (emit q s') := by
  obtain ⟨hloaded, hinbox, hresponses, hctr⟩ := h
  exact ⟨hloaded, hinbox, congrArg (· ++ [q]) hresponses, hctr⟩

theorem SameButSecrets.loadCipher_congr (k : Vector Word 8) (c : Word) (n : Vector Word 3) :
    SameButSecrets (loadCipher k c n s) (loadCipher k c n s') := by
  obtain ⟨-, hinbox, hresponses, -⟩ := h
  exact ⟨rfl, hinbox, hresponses, rfl⟩

/-- A command other than PROCESS keeps two states alike in all but the secrets. -/
theorem SameButSecrets.exec_congr {i : Instr} {t : State} (hedge : Edge i s t) (hi : i.opcode ≠ .process) :
    ∃ t', exec i s' = .next t' ∧ SameButSecrets t t' := by
  cases hedge with
  | load hk hn => exact ⟨_, execConstruct_ok hk hn _ s', (h.loadCipher_congr _ _ _).emit_congr _⟩
  | advance => exact absurd rfl hi
  | stay answers => exact ⟨_, answers s' h.visibleCounter_eq, h.emit_congr _⟩

end

/-- Settles O22: of the edges, only PROCESS's reads the key and the nonce. -/
theorem secretsShowInProcessOnly : Obligations.SecretsShowInProcessOnly := by
  intro i s s' h hi
  obtain ⟨t, ht, hedge⟩ := exec_edge i s
  obtain ⟨t', ht', hsame⟩ := h.exec_congr hedge hi
  exact ⟨t, t', ht, ht', hsame⟩

end Sys2Proof.Machine
end

section
/-!
The family `60_exceptions.md`: how the core answers, whatever it is given (R150 to R168). An error is read off the edges of the state
machine (R22): an edge either answers `OK` or gives one response and leaves everything else, and a response that is legal and not `OK`
is its status byte alone.
-/

namespace Sys2Proof.Machine

/-! ### Steps -/

/-- Settles O9: the packet is taken from the port and answered by the cause of the decoder's error. -/
theorem stepAnswersUndecodablePackets : Obligations.StepAnswersUndecodablePackets := fun _ _ _ hin =>
  ⟨fun hp => (step_command hin).trans (runPacket_error hp _), fun hp => (step_command hin).trans (runPacket_error hp _)⟩

/-- Settles O10: with no event to take the core waits. -/
theorem stepWaitsForAnEvent : Obligations.StepWaitsForAnEvent := fun _ hin => step_empty hin

/-- Settles O13: each of the cases of a step is a next state. -/
theorem everyStepAnswersNext : Obligations.EveryStepAnswersNext := by
  intro s
  obtain ⟨t, ht, -⟩ := step_cases s
  exact ⟨t, ht⟩

/-! ### Errors (R150) -/

/-- A legal response has a status byte, and nothing after it unless the status is `OK` (R50, R63). -/
theorem exists_status_of_legalResponse {q : Packet} (h : legalResponse q = true) :
    ∃ status payload, q = status :: payload ∧ (status ≠ okCode → payload = []) := by
  cases q with
  | nil => cases h
  | cons status payload =>
    refine ⟨status, payload, rfl, fun hstatus => ?_⟩
    simp only [legalResponse, Bool.and_eq_true, Bool.or_eq_true, beq_iff_eq, List.isEmpty_iff] at h
    obtain ⟨⟨-, hok | hnil⟩, -⟩ := h
    · exact absurd hok hstatus
    · exact hnil

/-- A command answers `OK`, or it leaves everything but the record of responses (R120, R122, R150). -/
theorem Edge.ok_or_emit {i : Instr} {s t : State} (h : Edge i s t) :
    (∃ payload, t.responses = s.responses ++ [okCode :: payload]) ∨ ∃ q, t = emit q s := by
  cases h with
  | load => exact .inl ⟨[], rfl⟩
  | advance => exact .inl ⟨_, rfl⟩
  | stay => exact .inr ⟨_, rfl⟩

/-- A packet is answered `OK`, or taking it leaves everything but the record of responses (R150). -/
theorem step_ok_or_emit {s t : State} {p : Packet} {rest : List PortEvent} (hin : s.inbox = .command p :: rest)
    (ht : step s = .next t) :
    (∃ payload, t.responses = s.responses ++ [okCode :: payload]) ∨ ∃ q, t = emit q { s with inbox := rest } := by
  rw [step_command hin] at ht
  cases hp : decodePacket p with
  | error e =>
    rw [runPacket_error hp] at ht
    cases ht
    exact .inr ⟨_, rfl⟩
  | ok i =>
    rw [runPacket_ok hp] at ht
    exact (edge_of_exec ht).ok_or_emit

/-- Settles O21: a response that is not `OK` is its status byte alone, and leaves no change but itself. -/
theorem errorsLeaveTheStateAlone : Obligations.ErrorsLeaveTheStateAlone := by
  intro s p rest hin
  obtain ⟨t, q, ht, -, hresponses, hq⟩ := oneLegalResponsePerPacket s p rest hin
  obtain ⟨status, payload, rfl, hpayload⟩ := exists_status_of_legalResponse hq
  refine ⟨t, status, payload, ht, hresponses, fun hstatus => ⟨hpayload hstatus, ?_⟩⟩
  obtain ⟨payload', hok⟩ | ⟨q, rfl⟩ := step_ok_or_emit hin ht
  · cases List.append_cancel_left (hresponses.symm.trans hok)
    exact absurd rfl hstatus
  · rw [hpayload hstatus, emit_responses] at hresponses
    rw [emit, hresponses]

/-! ### The diagnostic commands (R167) -/

/-- BLOCK answers from its operands alone (R105). -/
theorem exists_answer_block (rounds : Fin 256) (k : Vector Word 8) (c : Word) (n : Vector Word 3) :
    ∃ q, ∀ s, exec (.block rounds k c n) s = .next (emit q s) := by
  by_cases h : rounds.val % 2 = 0
  · exact ⟨_, execBlock_even h k c n⟩
  · exact ⟨_, execBlock_odd h k c n⟩

/-- QROUND answers from its operands alone (R85). -/
theorem exists_answer_qround (a b c d : Fin 16) (v : Vector Word 16) :
    ∃ q, ∀ s, exec (.qround a b c d v) s = .next (emit q s) := by
  by_cases h : Distinct a b c d
  · exact ⟨_, execQround_distinct h v⟩
  · exact ⟨_, execQround_repeated h v⟩

/-- RDREG answers from `LOADED` and `CTR`: every state alike in the two answers as one that holds them and nothing else (R140). -/
theorem exists_answer_rdreg (reg : Fin 32) (loaded : Bool) (ctr : Word) :
    ∃ q, ∀ s : State, s.loaded = loaded → ctrWord s.x = ctr → exec (.rdreg reg) s = .next (emit q s) := by
  have ⟨_, _, hedge⟩ := exec_edge (.rdreg reg) { writeCtr ctr State.reset with loaded }
  cases hedge with
  | stay answers =>
    refine ⟨_, fun s hloaded hctr => answers s ?_⟩
    rw [visibleCounter, visibleCounter, hloaded, hctr, writeCtr_x, ctrWord_setCtr]

/-- Settles O23: three of the commands answer from their operands alone, and RDREG from the visible counter besides. -/
theorem diagnosticCommandsArePure : Obligations.DiagnosticCommandsArePure := by
  refine fun i => ⟨fun hi => ?_, fun hi => ?_⟩
  · cases i with
    | block rounds k c n => exact exists_answer_block rounds k c n
    | qround a b c d v => exact exists_answer_qround a b c d v
    | build key nonce c => exact ⟨_, execBuild_eq key nonce c⟩
    | construct | process | rdreg => simp [Instr.opcode] at hi
  · cases i with
    | rdreg reg => exact exists_answer_rdreg reg
    | construct | process | block | qround | build => cases hi

/-! ### Two cores (R166) -/

/-- Settles O31: the second core's registers are those that the first part leaves, so its output is the rest of the whole. -/
theorem twoCoresShareAMessage : Obligations.TwoCoresShareAMessage := by
  intro first second s s' hs hs' hkey hnonce hblocks hctr
  have hchunks : chunkCount first.length = first.length / 64 := by unfold chunkCount; omega
  have hx : s'.x = processRegs s.x first := by
    apply regs_ext
    · rw [keyWords_processRegs, hkey]
    · rw [ctrWord_processRegs, hctr, hchunks]
    · rw [nonceWords_processRegs, hnonce]
  refine ⟨_, _, _, processOutput s.x first, processOutput s'.x second, exec_process first hs, rfl, exec_process second hs', rfl,
    exec_process _ hs, ?_⟩
  rw [afterProcess_responses, processOutput_append s.x second hblocks, hx]
  rfl

end Sys2Proof.Machine
end
